-- ==== Sys2Proof/Word.lean ====
section
/-! DEFINITION. The word types of the block: the command and CSR word (00_scope.md R4: CMDW = CSRW = 32), the TXT cell
(10_state.md R25), the TXT address (10_state.md R26: 12 bits) and the bit sequence (00_scope.md R6). -/

namespace Sys2Proof

/-- A command word or the content of a control and status register (00_scope.md R4, 30_encoding.md R60). -/
abbrev Word := BitVec 32

/-- The content of one TXT cell (10_state.md R25). -/
abbrev Byte := BitVec 8

/-- A TXT address, 0 to 4095 (10_state.md R26): no address outside the text memory can be written down. -/
abbrev TxtAddr := BitVec 12

/-- A bit sequence (00_scope.md R6): the element of index 0, the least significant, stands first. -/
abbrev Bits := List Bool

end Sys2Proof
end

