-- ==== Sys2Proof/Syntax.lean ====
section
/-! DEFINITION. The commands of the block as syntax: one constructor per row of the opcode table (30_encoding.md R64),
operands in the order of the assembler syntax (R67). Immediates are unsigned numbers (R63). -/

namespace Sys2Proof

/-- The eight value registers (10_state.md R10). -/
inductive Reg where
  | r0 | r1 | r2 | r3 | r4 | r5 | r6 | r7
deriving DecidableEq, Repr

/-- The 21 commands (30_encoding.md R64, operands R67). -/
inductive Instr where
  | clr (rd : Reg)
  | mov (rd ra : Reg)
  | apph (rd ra : Reg) (b : Bool)
  | insl (rd ra : Reg) (b : Bool)
  | remh (rd ra : Reg)
  | reml (rd ra : Reg)
  | strip (rd ra : Reg)
  | cplw (rd ra : Reg) (size : Nat)
  | getb (ra : Reg) (idx : Nat)
  | len (ra : Reg)
  | parse (r : Reg) (base len : Nat)
  | add (rd ra rb : Reg)
  | sub (rd ra rb : Reg)
  | negw (rd ra : Reg) (width : Nat)
  | mul (rd ra rb : Reg)
  | div (rd ra rb : Reg)
  | cmpge (ra rb : Reg)
  | lsl (rd ra : Reg) (n : Nat)
  | lsr (rd ra : Reg) (n : Nat)
  | tohex (r : Reg) (base : Nat)
  | clrdiag
deriving DecidableEq, Repr

end Sys2Proof
end

