-- ==== Sys2Proof/WellFormed.lean ====
section
/-! DEFINITION. Which commands a command word can express: every immediate fits its field (30_encoding.md R61, R63).
Every register number is valid in every register field, so registers need no check (R61). -/

namespace Sys2Proof

/-- `imm16` is 0 to 65535 (30_encoding.md R61). -/
def imm16Ok (n : Nat) : Bool := n < 2 ^ 16

/-- `base` and `len` are 0 to 4095 (30_encoding.md R61). -/
def imm12Ok (n : Nat) : Bool := n < 2 ^ 12

/-- Every immediate of the command fits its field. -/
def Instr.wellFormed : Instr → Bool
  | .clr _ => true
  | .mov _ _ => true
  | .apph _ _ _ => true
  | .insl _ _ _ => true
  | .remh _ _ => true
  | .reml _ _ => true
  | .strip _ _ => true
  | .cplw _ _ size => imm16Ok size
  | .getb _ idx => imm16Ok idx
  | .len _ => true
  | .parse _ base k => imm12Ok base && imm12Ok k
  | .add _ _ _ => true
  | .sub _ _ _ => true
  | .negw _ _ width => imm16Ok width
  | .mul _ _ _ => true
  | .div _ _ _ => true
  | .cmpge _ _ => true
  | .lsl _ _ n => imm16Ok n
  | .lsr _ _ n => imm16Ok n
  | .tohex _ base => imm12Ok base
  | .clrdiag => true

/-- The command is one that a command word can express. -/
abbrev Instr.WellFormed (i : Instr) : Prop := i.wellFormed = true

end Sys2Proof
end

