-- ==== Sys2Proof/Decode.lean ====
section
/-! DEFINITION. The decoder and the encoder of command words (30_encoding.md R60 to R66). The decoder follows R65: it
extracts the opcode, finds its row of the table R64, checks `W AND mask = match` and extracts the row's fields. The
encoder places the fields where R61 and R62 put them. -/

namespace Sys2Proof

/-- The field `W[hi:lo]` read as an unsigned number (00_scope.md R5). -/
def slice (w : Word) (hi lo : Nat) : Nat := w.toNat / 2 ^ lo % 2 ^ (hi + 1 - lo)

/-- The number of a register in a register field (30_encoding.md R61). -/
def Reg.num : Reg → Nat
  | .r0 => 0 | .r1 => 1 | .r2 => 2 | .r3 => 3 | .r4 => 4 | .r5 => 5 | .r6 => 6 | .r7 => 7

/-- The register of a 3-bit number (30_encoding.md R61: all eight numbers are valid). -/
def Reg.ofNum : Nat → Reg
  | 0 => .r0 | 1 => .r1 | 2 => .r2 | 3 => .r3 | 4 => .r4 | 5 => .r5 | 6 => .r6 | _ => .r7

/-- The assigned opcodes, named by their command (30_encoding.md R64). -/
inductive Opcode where
  | clr | mov | apph | insl | remh | reml | strip | cplw | getb | len | parse | add | sub | negw | mul | div | cmpge
  | lsl | lsr | tohex | clrdiag
deriving DecidableEq, Repr

/-- The column `op` of the opcode map (30_encoding.md R64). -/
def Opcode.num : Opcode → Nat
  | .clr => 0x01 | .mov => 0x02 | .apph => 0x03 | .insl => 0x04 | .remh => 0x05 | .reml => 0x06 | .strip => 0x07
  | .cplw => 0x08 | .getb => 0x09 | .len => 0x0A | .parse => 0x0B | .add => 0x0C | .sub => 0x0D | .negw => 0x0E
  | .mul => 0x0F | .div => 0x10 | .cmpge => 0x11 | .lsl => 0x12 | .lsr => 0x13 | .tohex => 0x14 | .clrdiag => 0x15

/-- The row of an opcode number; none for the reserved opcodes 0x00 and 0x16 to 0x1F (30_encoding.md R66). -/
def Opcode.ofNum : Nat → Option Opcode
  | 0x01 => some .clr | 0x02 => some .mov | 0x03 => some .apph | 0x04 => some .insl | 0x05 => some .remh
  | 0x06 => some .reml | 0x07 => some .strip | 0x08 => some .cplw | 0x09 => some .getb | 0x0A => some .len
  | 0x0B => some .parse | 0x0C => some .add | 0x0D => some .sub | 0x0E => some .negw | 0x0F => some .mul
  | 0x10 => some .div | 0x11 => some .cmpge | 0x12 => some .lsl | 0x13 => some .lsr | 0x14 => some .tohex
  | 0x15 => some .clrdiag
  | _ => none

/-- The column `match` of the opcode map (30_encoding.md R64). -/
def Opcode.matchWord : Opcode → Word
  | .clr => 0x08000000#32 | .mov => 0x10000000#32 | .apph => 0x18000000#32 | .insl => 0x20000000#32
  | .remh => 0x28000000#32 | .reml => 0x30000000#32 | .strip => 0x38000000#32 | .cplw => 0x40000000#32
  | .getb => 0x48000000#32 | .len => 0x50000000#32 | .parse => 0x58000000#32 | .add => 0x60000000#32
  | .sub => 0x68000000#32 | .negw => 0x70000000#32 | .mul => 0x78000000#32 | .div => 0x80000000#32
  | .cmpge => 0x88000000#32 | .lsl => 0x90000000#32 | .lsr => 0x98000000#32 | .tohex => 0xA0000000#32
  | .clrdiag => 0xA8000000#32

/-- The column `mask` of the opcode map (30_encoding.md R64). -/
def Opcode.mask : Opcode → Word
  | .clr => 0xF8FFFFFF#32 | .mov => 0xF81FFFFF#32 | .apph => 0xF81FFFFE#32 | .insl => 0xF81FFFFE#32
  | .remh => 0xF81FFFFF#32 | .reml => 0xF81FFFFF#32 | .strip => 0xF81FFFFF#32 | .cplw => 0xF81F0000#32
  | .getb => 0xFF1F0000#32 | .len => 0xFF1FFFFF#32 | .parse => 0xF8000000#32 | .add => 0xF803FFFF#32
  | .sub => 0xF803FFFF#32 | .negw => 0xF81F0000#32 | .mul => 0xF803FFFF#32 | .div => 0xF803FFFF#32
  | .cmpge => 0xFF03FFFF#32 | .lsl => 0xF81F0000#32 | .lsr => 0xF81F0000#32 | .tohex => 0xF8000FFF#32
  | .clrdiag => 0xFFFFFFFF#32

/-- Field `op` (30_encoding.md R60, R61). -/
def opField (w : Word) : Nat := slice w 31 27

/-- Field `rd`, and field `r` of the text commands (30_encoding.md R61). -/
def rdField (w : Word) : Reg := Reg.ofNum (slice w 26 24)

/-- Field `ra` (30_encoding.md R61). -/
def raField (w : Word) : Reg := Reg.ofNum (slice w 23 21)

/-- Field `rb` (30_encoding.md R61). -/
def rbField (w : Word) : Reg := Reg.ofNum (slice w 20 18)

/-- Field `imm16` (30_encoding.md R61, R63). -/
def imm16Field (w : Word) : Nat := slice w 15 0

/-- Field `b` (30_encoding.md R61). -/
def bField (w : Word) : Bool := slice w 0 0 == 1

/-- Field `base` (30_encoding.md R61). -/
def baseField (w : Word) : Nat := slice w 23 12

/-- Field `len` (30_encoding.md R61). -/
def lenField (w : Word) : Nat := slice w 11 0

/-- The command of a row with the fields of its format (30_encoding.md R62, R64). -/
def Opcode.instr (w : Word) : Opcode → Instr
  | .clr => .clr (rdField w)
  | .mov => .mov (rdField w) (raField w)
  | .apph => .apph (rdField w) (raField w) (bField w)
  | .insl => .insl (rdField w) (raField w) (bField w)
  | .remh => .remh (rdField w) (raField w)
  | .reml => .reml (rdField w) (raField w)
  | .strip => .strip (rdField w) (raField w)
  | .cplw => .cplw (rdField w) (raField w) (imm16Field w)
  | .getb => .getb (raField w) (imm16Field w)
  | .len => .len (raField w)
  | .parse => .parse (rdField w) (baseField w) (lenField w)
  | .add => .add (rdField w) (raField w) (rbField w)
  | .sub => .sub (rdField w) (raField w) (rbField w)
  | .negw => .negw (rdField w) (raField w) (imm16Field w)
  | .mul => .mul (rdField w) (raField w) (rbField w)
  | .div => .div (rdField w) (raField w) (rbField w)
  | .cmpge => .cmpge (raField w) (rbField w)
  | .lsl => .lsl (rdField w) (raField w) (imm16Field w)
  | .lsr => .lsr (rdField w) (raField w) (imm16Field w)
  | .tohex => .tohex (rdField w) (baseField w)
  | .clrdiag => .clrdiag

/-- Why a word is no command (30_encoding.md R66 (a) and (b)). -/
inductive Illegal where
  | reservedOpcode
  | mustBeZeroBitSet
deriving DecidableEq, Repr

/-- What a word decodes to: one command, or illegal (30_encoding.md R65). -/
inductive Decoded where
  | command (i : Instr)
  | illegal (why : Illegal)
deriving DecidableEq, Repr

/-- The decoder, total on all words (30_encoding.md R65, R66). -/
def decode (w : Word) : Decoded :=
  match Opcode.ofNum (opField w) with
  | none => .illegal .reservedOpcode
  | some op => if w &&& op.mask = op.matchWord then .command (op.instr w) else .illegal .mustBeZeroBitSet

/-- The row of a command (30_encoding.md R64). -/
def Instr.opcode : Instr → Opcode
  | .clr _ => .clr
  | .mov _ _ => .mov
  | .apph _ _ _ => .apph
  | .insl _ _ _ => .insl
  | .remh _ _ => .remh
  | .reml _ _ => .reml
  | .strip _ _ => .strip
  | .cplw _ _ _ => .cplw
  | .getb _ _ => .getb
  | .len _ => .len
  | .parse _ _ _ => .parse
  | .add _ _ _ => .add
  | .sub _ _ _ => .sub
  | .negw _ _ _ => .negw
  | .mul _ _ _ => .mul
  | .div _ _ _ => .div
  | .cmpge _ _ => .cmpge
  | .lsl _ _ _ => .lsl
  | .lsr _ _ _ => .lsr
  | .tohex _ _ => .tohex
  | .clrdiag => .clrdiag

/-- The sum that places the fields of a word (30_encoding.md R61, and the sums of R67's examples): the opcode at bit 27,
the field of bits 26:24 at bit 24, those of bits 23:21 and 20:18 at bits 21 and 18, and `low` at bit 0. -/
def assemble (op a b c low : Nat) : Word := BitVec.ofNat 32 (op * 2 ^ 27 + a * 2 ^ 24 + b * 2 ^ 21 + c * 2 ^ 18 + low)

/-- The word of a command (30_encoding.md R61, R62, R64); every must-be-zero bit is 0 (R60). -/
def encode : Instr → Word
  | .clr rd => assemble 0x01 rd.num 0 0 0
  | .mov rd ra => assemble 0x02 rd.num ra.num 0 0
  | .apph rd ra b => assemble 0x03 rd.num ra.num 0 b.toNat
  | .insl rd ra b => assemble 0x04 rd.num ra.num 0 b.toNat
  | .remh rd ra => assemble 0x05 rd.num ra.num 0 0
  | .reml rd ra => assemble 0x06 rd.num ra.num 0 0
  | .strip rd ra => assemble 0x07 rd.num ra.num 0 0
  | .cplw rd ra size => assemble 0x08 rd.num ra.num 0 size
  | .getb ra idx => assemble 0x09 0 ra.num 0 idx
  | .len ra => assemble 0x0A 0 ra.num 0 0
  | .parse r base len => assemble 0x0B r.num 0 0 (base * 2 ^ 12 + len)
  | .add rd ra rb => assemble 0x0C rd.num ra.num rb.num 0
  | .sub rd ra rb => assemble 0x0D rd.num ra.num rb.num 0
  | .negw rd ra width => assemble 0x0E rd.num ra.num 0 width
  | .mul rd ra rb => assemble 0x0F rd.num ra.num rb.num 0
  | .div rd ra rb => assemble 0x10 rd.num ra.num rb.num 0
  | .cmpge ra rb => assemble 0x11 0 ra.num rb.num 0
  | .lsl rd ra n => assemble 0x12 rd.num ra.num 0 n
  | .lsr rd ra n => assemble 0x13 rd.num ra.num 0 n
  | .tohex r base => assemble 0x14 r.num 0 0 (base * 2 ^ 12)
  | .clrdiag => assemble 0x15 0 0 0 0

/-- The host's view of the decoder: the command of the word whose `nbits` bits are `w`. Every row has one word of 32
bits, passed whole and in no byte order (30_encoding.md R60, 20_memory.md R44), so nothing longer is a command. -/
def decodeTableWord (nbits w : Nat) : Option Instr :=
  if nbits ≤ 32 then
    match decode (BitVec.ofNat 32 (w % 2 ^ nbits)) with
    | .command i => some i
    | .illegal _ => none
  else none

end Sys2Proof
end

