-- ==== Sys2Proof/Config.lean ====
section
/-! DEFINITION. The parameters of the block at their reference values (00_scope.md R4) and its one free value. -/

namespace Sys2Proof

/-- MAXW, the bound on shift counts (00_scope.md R4). DESIGN CHOICE: the reference value, log entry 2. -/
def Config.maxw : Nat := 4096

/-- CAP, the capacity of a value register in bits (00_scope.md R4). DESIGN CHOICE: the reference value, log entry 2. -/
def Config.cap : Nat := 8192

/-- TXTSZ, the number of cells of the text memory (00_scope.md R4). -/
def Config.txtsz : Nat := 4096

/-- The byte a TXT cell holds from power-on until the host or TOHEX writes it: a draw per cell
(10_state.md R25, 93_implementation_defined.md row 13). A free value: nothing constrains it, log entry 3. -/
opaque Config.txtPowerOn : TxtAddr → Byte

end Sys2Proof
end

