-- ==== Sys2Proof/Machine/State.lean ====
section
/-! DEFINITION. The state of the block (10_state.md), the host's side of its ports (20_memory.md section 3), the reasons
a step could stop, and the state after reset (10_state.md R28). -/

namespace Sys2Proof.Machine

/-- The eight value registers R0 to R7 (10_state.md R10). -/
structure RegFile where
  r0 : Bits
  r1 : Bits
  r2 : Bits
  r3 : Bits
  r4 : Bits
  r5 : Bits
  r6 : Bits
  r7 : Bits
deriving DecidableEq, Repr

/-- What CAUSE names (60_exceptions.md R175): no fault, or one of the seven causes. -/
inductive Cause where
  /-- Code 0: FAULT = 0. -/
  | noFault
  /-- Code 1, R177: raised by PARSE. -/
  | malformedInput
  /-- Code 2, R178: raised by LSL and LSR. -/
  | shiftRange
  /-- Code 3, R181: reserved, never raised. -/
  | mapFail
  /-- Code 4, R180: raised by DIV. -/
  | divZero
  /-- Code 5, R183: raised by the commit rule. -/
  | capacity
  /-- Code 6, R182: raised by PARSE and TOHEX. -/
  | txtRange
  /-- Code 7, R184: raised by an illegal command word. -/
  | illegalCmd
deriving DecidableEq, Repr

/-- The five host transactions (20_memory.md R48 to R52). -/
inductive HostTx where
  | cmd (w : Word)
  | txtWrite (a : TxtAddr) (v : Byte)
  | txtRead (a : TxtAddr)
  | csrRead (n : BitVec 3)
  | reset
deriving DecidableEq, Repr

/-- What a host read returns (20_memory.md R50, R51). -/
inductive HostAnswer where
  | txtByte (v : Byte)
  | csrWord (v : Word)
deriving DecidableEq, Repr

/-- The state. The fields down to `txt` are the block's (10_state.md R10 to R25); `hostQueue` and `hostAnswers` are the
model's own (log entry 1). CSRs STATUS, MAXW, CAP and SIGN and the outputs are views (Machine/Flags.lean, Machine/Ops.lean). -/
structure State where
  /-- R0 to R7 (R10). -/
  regs : RegFile
  /-- The reserved sign bits S7..S0 (R14). -/
  sign : BitVec 8
  /-- STATUS bit 0 (R16). -/
  fault : Bool
  /-- STATUS bit 1 (R17). -/
  diag : Bool
  /-- STATUS bit 2 (R18). -/
  ge : Bool
  /-- STATUS bit 3, the flag BIT (R19). -/
  bit : Bool
  /-- CSR CAUSE (R22). -/
  cause : Cause
  /-- CSR FINFO (R22). -/
  finfo : Word
  /-- CSR LENR (R23). -/
  lenr : Word
  /-- CSR TXTLEN (R23). -/
  txtlen : Word
  /-- The TXT cells written since power-on, addresses rising (R25; Machine/Ops.lean). -/
  txt : List Host.Cell
  /-- The host's transactions not yet issued, in the order of issue (20_memory.md R48; log entry 1). -/
  hostQueue : List HostTx
  /-- The values the host's reads have returned, newest first (20_memory.md R50, R51; log entry 1). -/
  hostAnswers : List HostAnswer
deriving DecidableEq, Repr

/-- The reasons a step could stop with a fault: none. The spec describes the entry of every fault (60_exceptions.md
R185), so every fault is taken, as a next state; no step answers `Host.Outcome.fault`. -/
inductive Fault where
deriving DecidableEq, Repr

/-- The reasons a step could be refused. -/
inductive Refusal where
  /-- A command with no meaning yet, named as the opcode table names it. Raised by an arm of `exec` only; no arm raises
  it, since every command has its meaning. Safe: the model would stop where the block goes on. -/
  | notModelled (mnemonic : String)
deriving DecidableEq, Repr

/-- What a command or a step answers. -/
abbrev Result := Host.Outcome State Fault Refusal

/-- The state after reset (10_state.md R28, 70_reset_and_hazards.md R200): registers empty, sign bits, flags and CSRs 0;
no TXT cell written since power-on; the host has issued nothing (log entry 1). -/
def State.reset : State where
  regs := ⟨[], [], [], [], [], [], [], []⟩
  sign := 0#8
  fault := false
  diag := false
  ge := false
  bit := false
  cause := .noFault
  finfo := 0#32
  lenr := 0#32
  txtlen := 0#32
  txt := []
  hostQueue := []
  hostAnswers := []

end Sys2Proof.Machine
end

