-- ==== Sys2Proof/Machine/BitSeq.lean ====
section
/-! DEFINITION. The primitives on bit sequences of 00_scope.md R5, R6 and the bit-sequence networks that other files use
(40_bitseq.md R80, R88, R89; 45_shift.md R152, R155). -/

namespace Sys2Proof.Machine

/-- `bit(s, i)`: reading beyond the length yields 0 (00_scope.md R6, 40_bitseq.md R80). -/
def bitAt (s : Bits) (i : Nat) : Bool := s.getD i false

/-- `val(s)`, the sum of `s[i] * 2^i` (00_scope.md R6). -/
def val : Bits → Nat
  | [] => 0
  | b :: s => b.toNat + 2 * val s

/-- `zeros(n)` (00_scope.md R6). -/
def zeros (n : Nat) : Bits := List.replicate n false

/-- `bitlen(v)`: 0 for 0, else the k with `2^(k-1) <= v < 2^k` (00_scope.md R5). -/
def bitlen (v : Nat) : Nat := if v = 0 then 0 else v.log2 + 1

/-- `enc(v, L)`: the sequence of length L with value v, for `v < 2^L` (00_scope.md R6); it lists the L low-order bits of v. -/
def enc (v : Nat) : Nat → Bits
  | 0 => []
  | l + 1 => (v % 2 == 1) :: enc (v / 2) l

/-- `canon(v) = enc(v, bitlen(v))` (00_scope.md R6). -/
def canon (v : Nat) : Bits := enc v (bitlen v)

/-- `is_canonical(s)`: empty, or the most-significant bit is 1 (00_scope.md R6). -/
def isCanonical (s : Bits) : Bool := s.getLast?.getD true

/-- `strip(s)`: every most-significant zero bit removed (00_scope.md R6, 40_bitseq.md R88). -/
def strip : Bits → Bits
  | [] => []
  | b :: s =>
    match strip s with
    | [] => if b then [true] else []
    | c :: t => b :: c :: t

/-- Complement in width: flips every bit among the first `size` positions, zero-extending a shorter sequence and
truncating a longer one (40_bitseq.md R89). -/
def cplw (s : Bits) : Nat → Bits
  | 0 => []
  | size + 1 => (!s.headD false) :: cplw s.tail size

/-- `lsl(s, n) = zeros(n) ++ s` (45_shift.md R152). -/
def lsl (s : Bits) (n : Nat) : Bits := zeros n ++ s

/-- `lsr(s, n) = drop(s, n)` (45_shift.md R155). -/
def lsr (s : Bits) (n : Nat) : Bits := s.drop n

end Sys2Proof.Machine
end

