-- ==== Sys2Proof/Machine/Operands.lean ====
section
/-! DEFINITION. Operand access: the sequence a register field names (30_encoding.md R63), and the window of TXT that a
string operand names (20_memory.md R41, R57). -/

namespace Sys2Proof.Machine

/-- The content of a register of the file (10_state.md R10; no register is hardwired). -/
def RegFile.get (f : RegFile) : Reg → Bits
  | .r0 => f.r0
  | .r1 => f.r1
  | .r2 => f.r2
  | .r3 => f.r3
  | .r4 => f.r4
  | .r5 => f.r5
  | .r6 => f.r6
  | .r7 => f.r7

/-- The file with one register replaced (10_state.md R10). -/
def RegFile.set (f : RegFile) (r : Reg) (v : Bits) : RegFile :=
  match r with
  | .r0 => { f with r0 := v }
  | .r1 => { f with r1 := v }
  | .r2 => { f with r2 := v }
  | .r3 => { f with r3 := v }
  | .r4 => { f with r4 := v }
  | .r5 => { f with r5 := v }
  | .r6 => { f with r6 := v }
  | .r7 => { f with r7 := v }

/-- `R[i]` as an operand (00_scope.md R7, 30_encoding.md R63). -/
def State.reg (s : State) (r : Reg) : Bits := s.regs.get r

/-- The write of `R[i]` once the commit rule has let it pass (10_state.md R13). -/
def State.setReg (s : State) (r : Reg) (v : Bits) : State := { s with regs := s.regs.set r v }

/-- The window check: the k bytes from `base` on end within TXT (20_memory.md R57). -/
def windowOk (base k : Nat) : Bool := base + k ≤ Config.txtsz

end Sys2Proof.Machine
end

