-- ==== Sys2Proof/Machine/Flags.lean ====
section
/-! DEFINITION. The flags of STATUS (10_state.md R16 to R19, R21), every write of one, and the two level outputs that
follow them (60_exceptions.md R190). FAULT is written by taking a fault and by reset only (Machine/Ops.lean). -/

namespace Sys2Proof.Machine

/-- `if d = 1 then DIAG <- 1`: the flag is sticky (10_state.md R17, 42_add_sub.md R115). -/
def State.orDiag (s : State) (d : Bool) : State := { s with diag := s.diag || d }

/-- `DIAG <- 0` (47_system.md R170). -/
def State.clearDiag (s : State) : State := { s with diag := false }

/-- `GE <- b` (10_state.md R18). -/
def State.setGe (s : State) (b : Bool) : State := { s with ge := b }

/-- `BIT <- b` (10_state.md R19). -/
def State.setBit (s : State) (b : Bool) : State := { s with bit := b }

/-- CSR STATUS: FAULT, DIAG, GE, BIT in bits 0 to 3, bits 31:4 hardwired 0 (10_state.md R21). -/
def State.statusWord (s : State) : Word :=
  BitVec.ofNat 32 (s.fault.toNat + 2 * s.diag.toNat + 4 * s.ge.toNat + 8 * s.bit.toNat)

/-- The level output `fault_o` (60_exceptions.md R190). -/
def State.faultOut (s : State) : Bool := s.fault

/-- The level output `diag_o` (60_exceptions.md R190). -/
def State.diagOut (s : State) : Bool := s.diag

end Sys2Proof.Machine
end

