-- ==== Sys2Proof/Machine/Ops.lean ====
section
/-! DEFINITION. The shared operations: reading and writing TXT (20_memory.md R42, R43), taking a fault and leaving the
faulted state (60_exceptions.md R185, R188), the commit rule (10_state.md R13), and reading a CSR (10_state.md R20).
TXT is held as the list of the cells written since power-on, addresses rising; an unlisted cell holds no written byte. -/

namespace Sys2Proof.Machine

/-- The byte last written at an address, if any (20_memory.md R42). -/
def Memory.lookup : List Host.Cell → Nat → Option Byte
  | [], _ => none
  | c :: m, a => if c.1 = a then some c.2 else Memory.lookup m a

/-- The cells with a byte written at an address, addresses rising (20_memory.md R43). -/
def Memory.insert : List Host.Cell → Nat → Byte → List Host.Cell
  | [], a, v => [(a, v)]
  | c :: m, a, v =>
    if a < c.1 then (a, v) :: c :: m
    else if a = c.1 then (a, v) :: m
    else c :: Memory.insert m a v

/-- The address list rises strictly and stays below a bound from `lo` on. -/
def Memory.risesFrom : Nat → List Host.Cell → Bool
  | _, [] => true
  | lo, c :: m => decide (lo ≤ c.1) && Memory.risesFrom (c.1 + 1) m

/-- The canonical form of the text memory: addresses strictly rising, each of them one of the 4096 (20_memory.md R47).
An unlisted cell reads as no written byte, and no entry can say that, so equal memories are equal lists (log entry 3). -/
def Memory.wf (m : List Host.Cell) : Bool := Memory.risesFrom 0 m && m.all (fun c => decide (c.1 < Config.txtsz))

/-- `MemRead(addr, 1)` on the cells: the byte last written there, or the cell's power-on byte, which is a free value
(20_memory.md R42, 10_state.md R25, log entry 3). -/
def Memory.read (m : List Host.Cell) (a : TxtAddr) : Byte := (Memory.lookup m a.toNat).getD (Config.txtPowerOn a)

/-- `MemWrite(addr, 1, v)` on the cells (20_memory.md R43). -/
def Memory.write (m : List Host.Cell) (a : TxtAddr) (v : Byte) : List Host.Cell := Memory.insert m a.toNat v

/-- `MemRead(addr, 1)` (20_memory.md R42). -/
def State.memRead (s : State) (a : TxtAddr) : Byte := Memory.read s.txt a

/-- `MemWrite(addr, 1, v)` (20_memory.md R43). -/
def State.memWrite (s : State) (a : TxtAddr) (v : Byte) : State := { s with txt := Memory.write s.txt a v }

/-- The write of TXT as a whole, once a command has computed all its bytes (46_tohex.md R160). -/
def State.setTxt (s : State) (m : List Host.Cell) : State := { s with txt := m }

/-- `LENR <- v` (10_state.md R23). -/
def State.setLenr (s : State) (v : Word) : State := { s with lenr := v }

/-- `TXTLEN <- v` (10_state.md R23). -/
def State.setTxtlen (s : State) (v : Word) : State := { s with txtlen := v }

/-- Taking a fault, `raise X(info)`: FAULT, CAUSE and FINFO are written and nothing else changes; control goes nowhere
(60_exceptions.md R185). -/
def State.raise (s : State) (c : Cause) (info : Word) : State := { s with fault := true, cause := c, finfo := info }

/-- The commit of a command that began in `s` and whose other writes give `s'`: a result longer than CAP raises CAPACITY
and nothing of the command is kept; otherwise the destination takes the result (10_state.md R13, 00_scope.md R7). -/
def State.commitWith (s s' : State) (rd : Reg) (v : Bits) : State :=
  if Config.cap < v.length then s.raise .capacity (BitVec.ofNat 32 v.length) else s'.setReg rd v

/-- `R[rd] <- v` (10_state.md R13). -/
def State.commit (s : State) (rd : Reg) (v : Bits) : State := s.commitWith s rd v

/-- The cause code (60_exceptions.md R175). -/
def Cause.code : Cause → Nat
  | .noFault => 0
  | .malformedInput => 1
  | .shiftRange => 2
  | .mapFail => 3
  | .divZero => 4
  | .capacity => 5
  | .txtRange => 6
  | .illegalCmd => 7

/-- The content of CSR n (10_state.md R20 to R24); 0 for every number above 7 (R24, decision D30). -/
def State.csrWord (s : State) : Nat → Word
  | 0 => s.statusWord
  | 1 => BitVec.ofNat 32 s.cause.code
  | 2 => s.finfo
  | 3 => s.lenr
  | 4 => s.txtlen
  | 5 => BitVec.ofNat 32 Config.maxw
  | 6 => BitVec.ofNat 32 Config.cap
  | 7 => s.sign.setWidth 32
  | _ => 0#32

/-- HostReset, the only way out of the faulted state: the block's state after reset, TXT untouched (10_state.md R28,
60_exceptions.md R188, 70_reset_and_hazards.md R200); the host's side of the ports is no state of the block. -/
def State.hostReset (s : State) : State :=
  { State.reset with txt := s.txt, hostQueue := s.hostQueue, hostAnswers := s.hostAnswers }

/-- The value of a host read is handed to the host (20_memory.md R50, R51; log entry 1). -/
def State.answer (s : State) (v : HostAnswer) : State := { s with hostAnswers := v :: s.hostAnswers }

/-- The host's list with its first transaction issued (20_memory.md R48; log entry 1). -/
def State.setQueue (s : State) (q : List HostTx) : State := { s with hostQueue := q }

end Sys2Proof.Machine
end

