-- ==== Sys2Proof/Machine/AddSub.lean ====
section
/-! DEFINITION. The carry-propagate adder and the commands ADD, NEGW, SUB (42_add_sub.md R110 to R116). -/

namespace Sys2Proof.Machine

/-- `n` positions of the ripple-carry addition, lowest first, with the carry into the first of them: at each position
`t := bit(x, i) + bit(y, i) + c` gives the result bit `t mod 2` and the new carry `t div 2`; a carry past the last
position is appended (42_add_sub.md R111). Each position reads the heads and hands on the tails, which read as 0 beyond
their length (40_bitseq.md R80). -/
def addFrom : Nat → Bits → Bits → Bool → Bits
  | 0, _, _, c => if c then [true] else []
  | n + 1, x, y, c =>
    let t := (x.headD false).toNat + (y.headD false).toNat + c.toNat
    (t % 2 == 1) :: addFrom n x.tail y.tail (t / 2 == 1)

/-- The function `add(x, y)`: the carry is 0 at the start, and there is one position per index of the longer operand
(42_add_sub.md R111). -/
def add (x y : Bits) : Bits := addFrom (max x.length y.length) x y false

/-- Two's complement within a width: complement in the width, then add the constant 1 (42_add_sub.md R114). -/
def negw (s : Bits) (w : Nat) : Bits := add (cplw s w) [true]

/-- The function `sub(a, b)`: the difference and the diagnostic bit (42_add_sub.md R115, R116). -/
def sub (a b : Bits) : Bits × Bool :=
  if a.length < b.length then ([], true)
  else (strip ((add a (negw b a.length)).take a.length), false)

/-- ADD rd, ra, rb (42_add_sub.md R110). -/
def execAdd (rd ra rb : Reg) (s : State) : Result := .next (s.commit rd (add (s.reg ra) (s.reg rb)))

/-- NEGW rd, ra, width (42_add_sub.md R114). -/
def execNegw (rd ra : Reg) (width : Nat) (s : State) : Result := .next (s.commit rd (negw (s.reg ra) width))

/-- SUB rd, ra, rb: DIAG is set in the unsupported case and otherwise left (42_add_sub.md R115, R116). -/
def execSub (rd ra rb : Reg) (s : State) : Result :=
  let r := sub (s.reg ra) (s.reg rb)
  .next (s.commitWith (s.orDiag r.2) rd r.1)

end Sys2Proof.Machine
end

