-- ==== Sys2Proof/Machine/Div.lean ====
section
/-! DEFINITION. The greater-or-equal comparator, the restoring long-division engine and the commands DIV, CMPGE
(44_div.md R140 to R146). -/

namespace Sys2Proof.Machine

/-- The function `ge(x, y)`: the comparison of the values (44_div.md R146). -/
def ge (x y : Bits) : Bool := decide (val y ≤ val x)

/-- The bit-serial comparator network over the `n` lowest indexes, scanned from the highest of them down (44_div.md R146);
`ge` is the definition the commands use. -/
def geScan (x y : Bits) : Nat → Bool
  | 0 => true
  | n + 1 => if bitAt x n = bitAt y n then geScan x y n else bitAt x n

/-- What the division loop keeps: remainder, quotient and diagnostic bit (44_div.md R141). -/
structure DivState where
  rem : Bits
  quo : Bits
  diag : Bool
deriving DecidableEq, Repr

/-- One iteration: shift the dividend bit into the remainder, compare, subtract and emit a quotient bit at the low end
(44_div.md R141, R142). -/
def divStep (b : Bits) (d : DivState) (ai : Bool) : DivState :=
  if ge (ai :: d.rem) b then
    let r := sub (ai :: d.rem) b
    ⟨r.1, true :: d.quo, d.diag || r.2⟩
  else ⟨ai :: d.rem, false :: d.quo, d.diag⟩

/-- The iterations over the dividend bits given from high to low (44_div.md R141). -/
def divFrom (b : Bits) : Bits → DivState → DivState
  | [], d => d
  | ai :: hs, d => divFrom b hs (divStep b d ai)

/-- The function `div(a, b)`: the canonical quotient and the diagnostic bit (44_div.md R141). -/
def div (a b : Bits) : Bits × Bool :=
  let d := divFrom b a.reverse ⟨[], [], false⟩
  (strip d.quo, d.diag)

/-- DIV rd, ra, rb: a divisor of value 0 raises DIV_ZERO(0) (44_div.md R140, R144). -/
def execDiv (rd ra rb : Reg) (s : State) : Result :=
  .next <|
    if val (s.reg rb) = 0 then s.raise .divZero 0#32
    else
      let r := div (s.reg ra) (s.reg rb)
      s.commitWith (s.orDiag r.2) rd r.1

/-- CMPGE ra, rb: `GE <- ge(R[ra], R[rb])` (44_div.md R145). -/
def execCmpge (ra rb : Reg) (s : State) : Result := .next (s.setGe (ge (s.reg ra) (s.reg rb)))

end Sys2Proof.Machine
end

