-- ==== Sys2Proof/Machine/Mul.lean ====
section
/-! DEFINITION. The shift-and-add multiplier and the command MUL (43_mul.md R130, R131). -/

namespace Sys2Proof.Machine

/-- The accumulation over the bits of the right operand from index `i` on: one addition of `left` shifted left by the
index per set bit, in ascending order (43_mul.md R131). -/
def mulFrom (left : Bits) : Bits → Nat → Bits → Bits
  | [], _, acc => acc
  | b :: right, i, acc => mulFrom left right (i + 1) (if b then add acc (lsl left i) else acc)

/-- The function `mul(a, b)`: the operand with the larger raw bit length is `left`, the first one on equal lengths
(43_mul.md R131). -/
def mul (a b : Bits) : Bits := if a.length < b.length then mulFrom b a 0 [] else mulFrom a b 0 []

/-- MUL rd, ra, rb (43_mul.md R130). -/
def execMul (rd ra rb : Reg) (s : State) : Result := .next (s.commit rd (mul (s.reg ra) (s.reg rb)))

end Sys2Proof.Machine
end

