-- ==== Sys2Proof/Machine/Parse.lean ====
section
/-! DEFINITION. PARSE and the input ROM (41_parse.md R100, R101). -/

namespace Sys2Proof.Machine

/-- The character-to-nibble table: none for the 234 invalid bytes (41_parse.md R101). -/
def hexval (c : Byte) : Option Nat :=
  if 0x30 ≤ c.toNat ∧ c.toNat ≤ 0x39 then some (c.toNat - 0x30)
  else if 0x41 ≤ c.toNat ∧ c.toNat ≤ 0x46 then some (c.toNat - 0x37)
  else if 0x61 ≤ c.toNat ∧ c.toNat ≤ 0x66 then some (c.toNat - 0x57)
  else none

/-- The four bits of a nibble, bit 0 first (41_parse.md R100, 20_memory.md R44 (c)). -/
def nibbleBits (n : Nat) : Bits := [n % 2 == 1, n / 2 % 2 == 1, n / 4 % 2 == 1, n / 8 == 1]

/-- What a scan of the window gives: the bits, or the address of the first invalid byte it met. -/
inductive Scan where
  | bits (s : Bits)
  | invalid (addr : TxtAddr)
deriving DecidableEq, Repr

/-- The address of the character `k` places above `base`; inside a window that passed its check nothing wraps
(20_memory.md R57). -/
def charAddr (base k : Nat) : TxtAddr := BitVec.ofNat 12 (base + k)

/-- The bits of a character below the bits of the characters of higher significance. -/
def Scan.below (low : Bits) : Scan → Scan
  | .bits s => .bits (low ++ s)
  | .invalid a => .invalid a

/-- The scan of the `k` characters at `base`, from the last character to the first: each valid one gives the next four
bits in increasing significance, and the first invalid one met ends the scan (41_parse.md R100). -/
def scanHex (m : List Host.Cell) (base : Nat) : Nat → Scan
  | 0 => .bits []
  | k + 1 =>
    match hexval (Memory.read m (charAddr base k)) with
    | none => .invalid (charAddr base k)
    | some n => (scanHex m base k).below (nibbleBits n)

/-- PARSE r, base, len: the window check, the scan, then the stripped result is committed (41_parse.md R100; the order of
the faults is 60_exceptions.md R187). -/
def execParse (r : Reg) (base len : Nat) (s : State) : Result :=
  .next <|
    if windowOk base len then
      match scanHex s.txt base len with
      | .bits v => s.commit r (strip v)
      | .invalid a => s.raise .malformedInput (a.setWidth 32)
    else s.raise .txtRange (BitVec.ofNat 32 (base + len))

end Sys2Proof.Machine
end

