-- ==== Sys2Proof/Machine/SeqCommands.lean ====
section
/-! DEFINITION. The bit-sequence commands CLR, MOV, APPH, INSL, REMH, REML, STRIP, CPLW, GETB, LEN (40_bitseq.md R82 to R91). -/

namespace Sys2Proof.Machine

/-- CLR rd: `R[rd] <- <>` (40_bitseq.md R82). -/
def execClr (rd : Reg) (s : State) : Result := .next (s.commit rd [])

/-- MOV rd, ra: `R[rd] <- R[ra]` (40_bitseq.md R83). The sign bits stay as they are (10_state.md R14, log entry 6). -/
def execMov (rd ra : Reg) (s : State) : Result := .next (s.commit rd (s.reg ra))

/-- APPH rd, ra, b: `R[rd] <- R[ra] ++ <b>` (40_bitseq.md R84). -/
def execApph (rd ra : Reg) (b : Bool) (s : State) : Result := .next (s.commit rd (s.reg ra ++ [b]))

/-- INSL rd, ra, b: `R[rd] <- <b> ++ R[ra]` (40_bitseq.md R85). -/
def execInsl (rd ra : Reg) (b : Bool) (s : State) : Result := .next (s.commit rd (b :: s.reg ra))

/-- Remove-highest-bit; the empty sequence stays empty (40_bitseq.md R86, decision D11). -/
def removeHighest (s : Bits) : Bits := s.take (s.length - 1)

/-- REMH rd, ra (40_bitseq.md R86). -/
def execRemh (rd ra : Reg) (s : State) : Result := .next (s.commit rd (removeHighest (s.reg ra)))

/-- REML rd, ra: `R[rd] <- drop(R[ra], 1)` (40_bitseq.md R87). -/
def execReml (rd ra : Reg) (s : State) : Result := .next (s.commit rd ((s.reg ra).drop 1))

/-- STRIP rd, ra (40_bitseq.md R88). -/
def execStrip (rd ra : Reg) (s : State) : Result := .next (s.commit rd (strip (s.reg ra)))

/-- CPLW rd, ra, size (40_bitseq.md R89). -/
def execCplw (rd ra : Reg) (size : Nat) (s : State) : Result := .next (s.commit rd (cplw (s.reg ra) size))

/-- GETB ra, idx: `BIT <- bit(R[ra], idx)` (40_bitseq.md R90). -/
def execGetb (ra : Reg) (idx : Nat) (s : State) : Result := .next (s.setBit (bitAt (s.reg ra) idx))

/-- LEN ra: `LENR <- len(R[ra])`, the raw bit length (40_bitseq.md R91). -/
def execLen (ra : Reg) (s : State) : Result := .next (s.setLenr (BitVec.ofNat 32 (s.reg ra).length))

end Sys2Proof.Machine
end

