-- ==== Sys2Proof/Machine/Shift.lean ====
section
/-! DEFINITION. The logical shifts LSL and LSR (45_shift.md R150 to R155). -/

namespace Sys2Proof.Machine

/-- The shift-count bound, checked before anything else: a count of MAXW or more raises SHIFT_RANGE(n), otherwise the
shifted sequence is committed (45_shift.md R150). -/
def State.shiftCommit (s : State) (rd : Reg) (n : Nat) (v : Bits) : State :=
  if Config.maxw ≤ n then s.raise .shiftRange (BitVec.ofNat 32 n) else s.commit rd v

/-- LSL rd, ra, n (45_shift.md R151). -/
def execLsl (rd ra : Reg) (n : Nat) (s : State) : Result := .next (s.shiftCommit rd n (lsl (s.reg ra) n))

/-- LSR rd, ra, n (45_shift.md R154). -/
def execLsr (rd ra : Reg) (n : Nat) (s : State) : Result := .next (s.shiftCommit rd n (lsr (s.reg ra) n))

end Sys2Proof.Machine
end

