-- ==== Sys2Proof/Machine/System.lean ====
section
/-! DEFINITION. The system command CLRDIAG (47_system.md R170). -/

namespace Sys2Proof.Machine

/-- CLRDIAG: `DIAG <- 0` (47_system.md R170). -/
def execClrdiag (s : State) : Result := .next s.clearDiag

end Sys2Proof.Machine
end

