-- ==== Sys2Proof/Machine/ToHex.lean ====
section
/-! DEFINITION. TOHEX and the output ROM (46_tohex.md R160 to R162). -/

namespace Sys2Proof.Machine

/-- The nibble-to-character table (46_tohex.md R161). -/
def hexchar (g : Nat) : Byte := BitVec.ofNat 8 (if g ≤ 9 then 0x30 + g else 0x37 + g)

/-- The number of characters: `max(1, (len + 3) div 4)` (46_tohex.md R160, R162). -/
def digitCount (s : Bits) : Nat := max 1 ((s.length + 3) / 4)

/-- The value of the lowest 4-bit group, missing bits read as 0 (46_tohex.md R160). -/
def lowGroup (s : Bits) : Nat :=
  (bitAt s 0).toNat + 2 * (bitAt s 1).toNat + 4 * (bitAt s 2).toNat + 8 * (bitAt s 3).toNat

/-- The characters of the `k` lowest groups, group 0 first (46_tohex.md R160). -/
def hexDigits : Nat → Bits → List Byte
  | 0, _ => []
  | k + 1, s => hexchar (lowGroup s) :: hexDigits k (s.drop 4)

/-- The writes of the characters, group 0 first: with `k` characters group `j` goes to `base + k - 1 - j`
(46_tohex.md R160). -/
def storeDigits (m : List Host.Cell) (base : Nat) : List Byte → List Host.Cell
  | [] => m
  | c :: cs => storeDigits (Memory.write m (charAddr base cs.length) c) base cs

/-- TOHEX r, base: the window check, then the characters and TXTLEN are written (46_tohex.md R160). -/
def execTohex (r : Reg) (base : Nat) (s : State) : Result :=
  .next <|
    if windowOk base (digitCount (s.reg r)) then
      (s.setTxt (storeDigits s.txt base (hexDigits (digitCount (s.reg r)) (s.reg r)))).setTxtlen
        (BitVec.ofNat 32 (digitCount (s.reg r)))
    else s.raise .txtRange (BitVec.ofNat 32 (base + digitCount (s.reg r)))

end Sys2Proof.Machine
end

