-- ==== Sys2Proof/Machine/Dispatch.lean ====
section
/-! DEFINITION. One arm per command of the opcode table (30_encoding.md R64): the command's own meaning. -/

namespace Sys2Proof.Machine

/-- The effect of one legal command on a block that is not faulted (20_memory.md R48, 60_exceptions.md R187). -/
def exec (i : Instr) (s : State) : Host.Outcome State Fault Refusal :=
  match i with
  | .clr rd => Sys2Proof.Machine.execClr rd s
  | .mov rd ra => Sys2Proof.Machine.execMov rd ra s
  | .apph rd ra b => Sys2Proof.Machine.execApph rd ra b s
  | .insl rd ra b => Sys2Proof.Machine.execInsl rd ra b s
  | .remh rd ra => Sys2Proof.Machine.execRemh rd ra s
  | .reml rd ra => Sys2Proof.Machine.execReml rd ra s
  | .strip rd ra => Sys2Proof.Machine.execStrip rd ra s
  | .cplw rd ra size => Sys2Proof.Machine.execCplw rd ra size s
  | .getb ra idx => Sys2Proof.Machine.execGetb ra idx s
  | .len ra => Sys2Proof.Machine.execLen ra s
  | .parse r base len => Sys2Proof.Machine.execParse r base len s
  | .add rd ra rb => Sys2Proof.Machine.execAdd rd ra rb s
  | .sub rd ra rb => Sys2Proof.Machine.execSub rd ra rb s
  | .negw rd ra width => Sys2Proof.Machine.execNegw rd ra width s
  | .mul rd ra rb => Sys2Proof.Machine.execMul rd ra rb s
  | .div rd ra rb => Sys2Proof.Machine.execDiv rd ra rb s
  | .cmpge ra rb => Sys2Proof.Machine.execCmpge ra rb s
  | .lsl rd ra n => Sys2Proof.Machine.execLsl rd ra n s
  | .lsr rd ra n => Sys2Proof.Machine.execLsr rd ra n s
  | .tohex r base => Sys2Proof.Machine.execTohex r base s
  | .clrdiag => Sys2Proof.Machine.execClrdiag s

end Sys2Proof.Machine
end

