-- ==== Sys2Proof/Machine/HostPort.lean ====
section
/-! DEFINITION. The five host transactions (20_memory.md R48 to R52). -/

namespace Sys2Proof.Machine

/-- HostCmd(w): discarded while FAULT = 1; an illegal word raises ILLEGAL_CMD(w); otherwise the command executes
(20_memory.md R48, 60_exceptions.md R184, R186, R187). -/
def hostCmd (w : Word) (s : State) : Result :=
  if s.fault then .next s
  else
    match decode w with
    | .command i => exec i s
    | .illegal _ => .next (s.raise .illegalCmd w)

/-- One host transaction (20_memory.md R48 to R52). -/
def hostTransact (t : HostTx) (s : State) : Result :=
  match t with
  | .cmd w => hostCmd w s
  | .txtWrite a v => .next (s.memWrite a v)
  | .txtRead a => .next (s.answer (.txtByte (s.memRead a)))
  | .csrRead n => .next (s.answer (.csrWord (s.csrWord n.toNat)))
  | .reset => .next s.hostReset

/-- The next transaction of the host's list is issued and completes; with nothing to issue the block is idle and holds its
state (20_memory.md R48, 60_exceptions.md R193; log entry 1). -/
def hostStep (s : State) : Result :=
  match s.hostQueue with
  | [] => .next s
  | t :: q => hostTransact t (s.setQueue q)

/-- The state whose host issues the command word `w` next (log entry 1). -/
def State.issueNext (s : State) (w : Word) : State := s.setQueue (.cmd w :: s.hostQueue)

end Sys2Proof.Machine
end

