-- ==== Sys2Proof/Machine/Step.lean ====
section
/-! DEFINITION. One step of the machine: one host transaction (20_memory.md R48, log entry 1). -/

namespace Sys2Proof.Machine

/-- One step: the next host transaction, to completion. -/
def step (s : State) : Host.Outcome State Fault Refusal := hostStep s

/-- The state whose very next step is the HostCmd of the word `w`, its bits above `nbits` 0: the host puts it in front of
its list. There is no fetch: commands come from the host's port (10_state.md R15, 20_memory.md R55; log entry 1). -/
def State.withFetchWord (s : State) (nbits w : Nat) : State := s.issueNext (BitVec.ofNat 32 (w % 2 ^ nbits))

end Sys2Proof.Machine
end

