-- ==== Sys2Proof/Safety.lean ====
section
/-! DEFINITION. The terms the claims use: the invariant of the machine, what leaves what unchanged, and which registers a
command reads and writes (10_state.md R12). -/

namespace Sys2Proof.Machine

/-- What FINFO may hold beside each cause (60_exceptions.md R175, R181; 10_state.md R22). -/
def finfoOk (c : Cause) (v : Word) : Bool :=
  match c with
  | .noFault => v == 0#32
  | .malformedInput => v.toNat < Config.txtsz
  | .shiftRange => Config.maxw ≤ v.toNat && v.toNat < 2 ^ 16
  | .mapFail => false
  | .divZero => v == 0#32
  | .capacity => Config.cap < v.toNat
  | .txtRange => Config.txtsz < v.toNat && v.toNat ≤ 8190
  | .illegalCmd => match decode v with
    | .command _ => false
    | .illegal _ => true

/-- The invariant of the machine. -/
structure State.Inv (s : State) : Prop where
  /-- Each register holds 0 to CAP bits (10_state.md R10). -/
  regsFit : ∀ r : Reg, (s.reg r).length ≤ Config.cap
  /-- The text memory keeps its canonical form (log entry 3). -/
  txtWf : Memory.wf s.txt = true
  /-- Each sign bit is 0 always (10_state.md R14). -/
  signZero : s.sign = 0#8
  /-- CAUSE is 0 exactly when FAULT = 0 (10_state.md R22). -/
  faultCause : s.fault = true ↔ s.cause ≠ .noFault
  /-- FINFO is what the cause's row says (60_exceptions.md R175). -/
  finfo : finfoOk s.cause s.finfo = true
  /-- LENR is 0 to CAP (10_state.md R23). -/
  lenr : s.lenr.toNat ≤ Config.cap
  /-- TXTLEN is at most `max(1, (CAP + 3) div 4)` (10_state.md R23). -/
  txtlen : s.txtlen.toNat ≤ max 1 ((Config.cap + 3) / 4)

/-- Every register but one reads as before. -/
def SameRegsBut (rd : Reg) (s t : State) : Prop := ∀ r : Reg, r ≠ rd → t.reg r = s.reg r

/-- Every register reads as before. -/
def SameRegs (s t : State) : Prop := ∀ r : Reg, t.reg r = s.reg r

/-- Every TXT cell reads as before. -/
def SameTxt (s t : State) : Prop := ∀ a : TxtAddr, t.memRead a = s.memRead a

/-- FAULT and the fault registers are as before. -/
def SameFault (s t : State) : Prop := t.fault = s.fault ∧ t.cause = s.cause ∧ t.finfo = s.finfo

/-- The flags DIAG, GE and BIT are as before. -/
def SameFlags (s t : State) : Prop := t.diag = s.diag ∧ t.ge = s.ge ∧ t.bit = s.bit

/-- LENR, TXTLEN and the sign bits are as before. -/
def SameCsrs (s t : State) : Prop := t.lenr = s.lenr ∧ t.txtlen = s.txtlen ∧ t.sign = s.sign

/-- The host's list and the answers given to it are as before. -/
def SameHost (s t : State) : Prop := t.hostQueue = s.hostQueue ∧ t.hostAnswers = s.hostAnswers

/-- Nothing changed but, perhaps, one register. -/
def OnlyReg (rd : Reg) (s t : State) : Prop :=
  SameRegsBut rd s t ∧ SameFault s t ∧ SameFlags s t ∧ SameCsrs s t ∧ SameTxt s t ∧ SameHost s t

/-- Nothing changed but FAULT, CAUSE and FINFO, which a fault wrote (60_exceptions.md R185). -/
def OnlyFault (c : Cause) (info : Word) (s t : State) : Prop :=
  t.fault = true ∧ t.cause = c ∧ t.finfo = info ∧
    SameRegs s t ∧ SameFlags s t ∧ SameCsrs s t ∧ SameTxt s t ∧ SameHost s t

/-- The nibble value of the character at an address of TXT, 0 for an invalid one (41_parse.md R101). -/
def State.digitAt (s : State) (a : Nat) : Nat := (hexval (s.memRead (BitVec.ofNat 12 a))).getD 0

/-- Every character of a window is one of the 22 hexadecimal digits (41_parse.md R101). -/
def State.AllHex (s : State) (base k : Nat) : Prop := ∀ j < k, hexval (s.memRead (BitVec.ofNat 12 (base + j))) ≠ none

/-- The number a hexadecimal string of k characters at `base` stands for (41_parse.md R100):
`sum over j of hexval(TXT[base+k-1-j]) * 16^j`. -/
def State.hexNumber (s : State) (base k : Nat) : Nat :=
  ∑ j ∈ Finset.range k, s.digitAt (base + k - 1 - j) * 16 ^ j

/-- The result sequence a command hands to the commit rule (10_state.md R13), as its rule gives it; empty for a command that
writes no register and for a PARSE that its scan ends. -/
def Instr.result (s : State) : Instr → Bits
  | .clr _ => []
  | .mov _ ra => s.reg ra
  | .apph _ ra b => s.reg ra ++ [b]
  | .insl _ ra b => b :: s.reg ra
  | .remh _ ra => removeHighest (s.reg ra)
  | .reml _ ra => (s.reg ra).drop 1
  | .strip _ ra => strip (s.reg ra)
  | .cplw _ ra size => cplw (s.reg ra) size
  | .getb _ _ => []
  | .len _ => []
  | .parse _ base k => match scanHex s.txt base k with
    | .bits v => strip v
    | .invalid _ => []
  | .add _ ra rb => add (s.reg ra) (s.reg rb)
  | .sub _ ra rb => (sub (s.reg ra) (s.reg rb)).1
  | .negw _ ra width => negw (s.reg ra) width
  | .mul _ ra rb => mul (s.reg ra) (s.reg rb)
  | .div _ ra rb => (div (s.reg ra) (s.reg rb)).1
  | .cmpge _ _ => []
  | .lsl _ ra n => lsl (s.reg ra) n
  | .lsr _ ra n => lsr (s.reg ra) n
  | .tohex _ _ => []
  | .clrdiag => []

end Sys2Proof.Machine

namespace Sys2Proof

open Machine

/-- The must-be-zero ranges `hi:lo` of a row's format (30_encoding.md R62). -/
def Opcode.mustBeZero : Opcode → List (Nat × Nat)
  | .clr => [(23, 0)]
  | .mov => [(20, 0)]
  | .apph => [(20, 1)]
  | .insl => [(20, 1)]
  | .remh => [(20, 0)]
  | .reml => [(20, 0)]
  | .strip => [(20, 0)]
  | .cplw => [(20, 16)]
  | .getb => [(26, 24), (20, 16)]
  | .len => [(26, 24), (20, 0)]
  | .parse => []
  | .add => [(17, 0)]
  | .sub => [(17, 0)]
  | .negw => [(20, 16)]
  | .mul => [(17, 0)]
  | .div => [(17, 0)]
  | .cmpge => [(26, 24), (17, 0)]
  | .lsl => [(20, 16)]
  | .lsr => [(20, 16)]
  | .tohex => [(11, 0)]
  | .clrdiag => [(26, 0)]

/-- Every must-be-zero bit of a row's format is 0 in the word (30_encoding.md R60, R62). -/
def Opcode.MbzClear (op : Opcode) (w : Word) : Prop := ∀ p ∈ op.mustBeZero, slice w p.1 p.2 = 0

/-- The register a command writes (10_state.md R12, column Writes). -/
def Instr.dest : Instr → Option Reg
  | .clr rd => some rd
  | .mov rd _ => some rd
  | .apph rd _ _ => some rd
  | .insl rd _ _ => some rd
  | .remh rd _ => some rd
  | .reml rd _ => some rd
  | .strip rd _ => some rd
  | .cplw rd _ _ => some rd
  | .getb _ _ => none
  | .len _ => none
  | .parse r _ _ => some r
  | .add rd _ _ => some rd
  | .sub rd _ _ => some rd
  | .negw rd _ _ => some rd
  | .mul rd _ _ => some rd
  | .div rd _ _ => some rd
  | .cmpge _ _ => none
  | .lsl rd _ _ => some rd
  | .lsr rd _ _ => some rd
  | .tohex _ _ => none
  | .clrdiag => none

/-- The registers a command reads (10_state.md R12, column Reads). -/
def Instr.sources : Instr → List Reg
  | .clr _ => []
  | .mov _ ra => [ra]
  | .apph _ ra _ => [ra]
  | .insl _ ra _ => [ra]
  | .remh _ ra => [ra]
  | .reml _ ra => [ra]
  | .strip _ ra => [ra]
  | .cplw _ ra _ => [ra]
  | .getb ra _ => [ra]
  | .len ra => [ra]
  | .parse _ _ _ => []
  | .add _ ra rb => [ra, rb]
  | .sub _ ra rb => [ra, rb]
  | .negw _ ra _ => [ra]
  | .mul _ ra rb => [ra, rb]
  | .div _ ra rb => [ra, rb]
  | .cmpge ra rb => [ra, rb]
  | .lsl _ ra _ => [ra]
  | .lsr _ ra _ => [ra]
  | .tohex r _ => [r]
  | .clrdiag => []

end Sys2Proof
end

