-- ==== Sys2Proof/Certificates/Slice0/Obligations.lean ====
section
/-! DEFINITION. The statements for the provers, each citing the rule of spec/ it formalises. -/

open Sys2Proof Sys2Proof.Machine

/-! ### Encoding (30_encoding.md) -/

/-- Decoding the word of a well-formed command gives the command back, with every operand at every value its field admits
(30_encoding.md sections 1 to 3). -/
def Obligations.DecodeOfEncodeIsTheCommand : Prop :=
  ∀ i : Instr, i.WellFormed → decode (encode i) = .command i

/-- Each word has at most one meaning: a command that a word decodes to is well-formed and encodes to that very word
(30_encoding.md sections 1 to 3). -/
def Obligations.EncodeOfDecodeIsTheWord : Prop :=
  ∀ (w : Word) (i : Instr), decode w = .command i → i.WellFormed ∧ encode i = w

/-- 30_encoding.md R65: every word is either exactly one command of the table, with the fields of its row, or illegal. -/
def Obligations.EveryWordIsOneCommandOrIllegal : Prop :=
  ∀ w : Word,
    (∃ i : Instr, decode w = .command i ∧ w &&& i.opcode.mask = i.opcode.matchWord ∧ opField w = i.opcode.num ∧
      (∀ op : Opcode, w &&& op.mask = op.matchWord → op = i.opcode) ∧ i = i.opcode.instr w) ∨
    ((∃ why, decode w = .illegal why) ∧ ∀ op : Opcode, w &&& op.mask ≠ op.matchWord)

/-- 30_encoding.md R66: a word is illegal exactly when its opcode is reserved or a must-be-zero bit of its format is 1;
executing it raises ILLEGAL_CMD with the word. -/
def Obligations.IllegalWordsAreReservedOpcodesOrMustBeZeroBits : Prop :=
  (∀ w : Word, (∃ why, decode w = .illegal why) ↔
    (opField w = 0 ∨ 0x16 ≤ opField w) ∨ ∃ op : Opcode, opField w = op.num ∧ ¬ op.MbzClear w) ∧
  (∃ why, decode 0x00000000#32 = .illegal why) ∧ (∃ why, decode 0xFFFFFFFF#32 = .illegal why) ∧
  ∀ (w : Word) (s : State), s.fault = false → (∃ why, decode w = .illegal why) →
    hostCmd w s = .next (s.raise .illegalCmd w)

/-- The words that 30_encoding.md R67 and 95_test_vectors.md write out, one for each row of the opcode map, decode to the
commands they stand for. -/
def Obligations.SpecWordsDecodeToTheirCommands : Prop :=
  decode 0x0D000000#32 = .command (.clr .r5) ∧
  decode 0x12200000#32 = .command (.mov .r2 .r1) ∧
  decode 0x1A400001#32 = .command (.apph .r2 .r2 true) ∧
  decode 0x22200000#32 = .command (.insl .r2 .r1 false) ∧
  decode 0x29200000#32 = .command (.remh .r1 .r1) ∧
  decode 0x32200000#32 = .command (.reml .r2 .r1) ∧
  decode 0x39200000#32 = .command (.strip .r1 .r1) ∧
  decode 0x42200005#32 = .command (.cplw .r2 .r1 5) ∧
  decode 0x4820FFFF#32 = .command (.getb .r1 65535) ∧
  decode 0x50200000#32 = .command (.len .r1) ∧
  decode 0x59010002#32 = .command (.parse .r1 0x010 2) ∧
  decode 0x63280000#32 = .command (.add .r3 .r1 .r2) ∧
  decode 0x6B280000#32 = .command (.sub .r3 .r1 .r2) ∧
  decode 0x72200005#32 = .command (.negw .r2 .r1 5) ∧
  decode 0x7B280000#32 = .command (.mul .r3 .r1 .r2) ∧
  decode 0x83280000#32 = .command (.div .r3 .r1 .r2) ∧
  decode 0x88440000#32 = .command (.cmpge .r2 .r1) ∧
  decode 0x91000004#32 = .command (.lsl .r1 .r0 4) ∧
  decode 0x9A200003#32 = .command (.lsr .r2 .r1 3) ∧
  decode 0xA3100000#32 = .command (.tohex .r3 0x100) ∧
  decode 0xA8000000#32 = .command .clrdiag

/-! ### The step and the host transactions (20_memory.md section 3) -/

/-- When the host issues next a word that decodes to a command, and the block is not faulted, the step is the command,
run with the transaction taken off the host's list. The host's list in State is the model's own (log entry 1). -/
def Obligations.StepRunsTheDecodedCommand : Prop :=
  ∀ (s : State) (w : Word) (q : List HostTx) (i : Instr),
    s.hostQueue = .cmd w :: q → s.fault = false → decode w = .command i → step s = exec i (s.setQueue q)

/-- A step issues the next transaction of the host's list, to completion; with an empty list the block is idle and holds its
state (20_memory.md section 3, 60_exceptions.md section 3). The host's list in State, and that a step with nothing to issue
is a step, are the model's choices (log entry 1). -/
def Obligations.StepIssuesTheNextTransaction : Prop :=
  (∀ (s : State) (tx : HostTx) (q : List HostTx), s.hostQueue = tx :: q → step s = hostTransact tx (s.setQueue q)) ∧
  ∀ s : State, s.hostQueue = [] → step s = .next s

/-- Every step answers a next state: each host transaction completes (20_memory.md section 3), every fault the spec has is
taken and nothing stops the machine (60_exceptions.md section 2). That a step with nothing to issue is a step is the
model's choice (log entry 1). -/
def Obligations.EveryStepAnswersANextState : Prop :=
  ∀ s : State, ∃ t, step s = .next t

/-- 60_exceptions.md R186: while FAULT = 1 every HostCmd is discarded without effect, whatever the word; the text and CSR
transactions keep working; and only HostReset leaves the faulted state, clearing every value register. That a read's value
is handed over through State is the model's form (log entry 1). -/
def Obligations.FaultedBlockDiscardsCommandsUntilReset : Prop :=
  ∀ s : State, s.fault = true →
    (∀ w, hostTransact (.cmd w) s = .next s) ∧
    (∀ a v, hostTransact (.txtWrite a v) s = .next (s.memWrite a v)) ∧
    (∀ a, hostTransact (.txtRead a) s = .next (s.answer (.txtByte (s.memRead a)))) ∧
    (∀ n, hostTransact (.csrRead n) s = .next (s.answer (.csrWord (s.csrWord n.toNat)))) ∧
    ∀ tx t, hostTransact tx s = .next t → (t.fault = false ↔ tx = .reset) ∧ (tx = .reset → ∀ r, t.reg r = [])

/-- 60_exceptions.md R188: CAUSE and FINFO always describe the first fault since reset: once FAULT = 1 no transaction but a
reset changes them, or FAULT, or a register, flag or other CSR. -/
def Obligations.FirstFaultSinceResetIsKept : Prop :=
  ∀ (s t : State) (tx : HostTx), s.fault = true → tx ≠ .reset → hostTransact tx s = .next t →
    SameFault s t ∧ SameRegs s t ∧ SameFlags s t ∧ SameCsrs s t

/-- 20_memory.md R43 and R49: HostTxtWrite makes TXT[addr] = v and changes no other cell and nothing else of the block, in
any state including FAULT = 1. -/
def Obligations.HostTextWriteChangesOneCell : Prop :=
  ∀ (s : State) (a : TxtAddr) (v : Byte),
    ∃ t, hostTransact (.txtWrite a v) s = .next t ∧ t.memRead a = v ∧ (∀ p, p ≠ a → t.memRead p = s.memRead p) ∧
      SameRegs s t ∧ SameFault s t ∧ SameFlags s t ∧ SameCsrs s t ∧ SameHost s t

/-- 20_memory.md R42 and R50: HostTxtRead returns the byte of the cell and changes nothing of the block; a cell written by
nobody yields its free power-on byte, whatever that is (log entry 3), and a written one the byte of its last write. That the
value returned stands at the head of a list in State is the model's form (log entry 1). -/
def Obligations.HostTextReadReturnsTheCell : Prop :=
  (∀ (s : State) (a : TxtAddr),
    ∃ t, hostTransact (.txtRead a) s = .next t ∧ t.hostAnswers = .txtByte (s.memRead a) :: s.hostAnswers ∧
      t.hostQueue = s.hostQueue ∧ SameTxt s t ∧ SameRegs s t ∧ SameFault s t ∧ SameFlags s t ∧ SameCsrs s t) ∧
  (∀ (s : State) (a : TxtAddr), s.txt = [] → s.memRead a = Config.txtPowerOn a) ∧
  ∀ (s : State) (a b : TxtAddr) (v w : Byte), a ≠ b → ((s.memWrite a v).memWrite b w).memRead a = v ∧
    ((s.memWrite a v).memWrite a w).memRead a = w

/-- 20_memory.md R51: HostCsrRead returns the value of CSR n and changes nothing of the block. That the value returned stands
at the head of a list in State is the model's form (log entry 1). -/
def Obligations.HostCsrReadReturnsTheRegister : Prop :=
  ∀ (s : State) (n : BitVec 3),
    ∃ t, hostTransact (.csrRead n) s = .next t ∧ t.hostAnswers = .csrWord (s.csrWord n.toNat) :: s.hostAnswers ∧
      t.hostQueue = s.hostQueue ∧ SameTxt s t ∧ SameRegs s t ∧ SameFault s t ∧ SameFlags s t ∧ SameCsrs s t

/-- 10_state.md sections 2, 4, 5: the bits of STATUS, with the reserved bits 0; CAUSE, FINFO, LENR and TXTLEN; the constants of
MAXW and CAP; SIGN; 0 above number 7. The two outputs follow their flags (60_exceptions.md section 3). The numbers 4096 and
8192 are the model's choice of the reference values, which 00_scope.md R4 and decision D4 leave open (log entry 2). -/
def Obligations.CsrsReadTheirContents : Prop :=
  ∀ s : State,
    (s.csrWord 0).getLsbD 0 = s.fault ∧ (s.csrWord 0).getLsbD 1 = s.diag ∧ (s.csrWord 0).getLsbD 2 = s.ge ∧
    (s.csrWord 0).getLsbD 3 = s.bit ∧ (∀ i, 4 ≤ i → (s.csrWord 0).getLsbD i = false) ∧
    (s.csrWord 1).toNat = s.cause.code ∧ s.cause.code < 8 ∧ s.csrWord 2 = s.finfo ∧ s.csrWord 3 = s.lenr ∧
    s.csrWord 4 = s.txtlen ∧ (s.csrWord 5).toNat = 4096 ∧ (s.csrWord 6).toNat = 8192 ∧
    (s.csrWord 7).toNat = s.sign.toNat ∧ (s.Inv → s.csrWord 7 = 0#32) ∧ (∀ n, 7 < n → s.csrWord n = 0#32) ∧
    s.faultOut = (s.csrWord 0).getLsbD 0 ∧ s.diagOut = (s.csrWord 0).getLsbD 1

/-- 10_state.md section 8: HostReset, from any state, empties the registers, zeroes the sign bits, the flags and the CSRs, and
leaves TXT untouched; the constants stand. That it leaves the host's two lists as they are is the model's choice (log
entry 1). At power-on a cell of TXT reads its free byte, whatever that is (log entry 3), the reset state being the one after
the first reset since power-on (log entry 7). -/
def Obligations.HostResetGivesTheResetState : Prop :=
  ∀ s : State,
    ∃ t, hostTransact .reset s = .next t ∧ (∀ r, t.reg r = []) ∧ t.sign = 0#8 ∧
      t.fault = false ∧ t.diag = false ∧ t.ge = false ∧ t.bit = false ∧
      t.cause = .noFault ∧ t.finfo = 0#32 ∧ t.lenr = 0#32 ∧ t.txtlen = 0#32 ∧
      t.csrWord 0 = 0#32 ∧ t.csrWord 1 = 0#32 ∧ (t.csrWord 5).toNat = Config.maxw ∧
      (t.csrWord 6).toNat = Config.cap ∧ t.csrWord 7 = 0#32 ∧ SameTxt s t ∧ SameHost s t ∧
      ∀ a, State.reset.memRead a = Config.txtPowerOn a

/-! ### The invariant and whole-machine rules -/

/-- The state after reset (10_state.md section 8; log entries 1 and 7) meets the invariant, whose clause on the text memory is
about the model's form of it (log entry 3). -/
def Obligations.ResetMeetsTheInvariant : Prop := State.reset.Inv

/-- Every step keeps the invariant: registers within CAP, the text memory in its canonical form (the model's, log entry 3),
the sign bits 0, CAUSE set exactly when FAULT is, FINFO what its cause's row says, LENR and TXTLEN within their bounds. A
step with nothing to issue is the model's (log entry 1). -/
def Obligations.EveryStepKeepsTheInvariant : Prop :=
  ∀ s t : State, s.Inv → step s = .next t → t.Inv

/-- 60_exceptions.md R185: taking a fault writes FAULT, CAUSE and FINFO and nothing else; a faulting command does exactly
that, and a command that does not fault leaves those three alone. -/
def Obligations.FaultsArePrecise : Prop :=
  (∀ (s : State) (c : Cause) (v : Word), OnlyFault c v s (s.raise c v) ∧ ((s.raise c v).csrWord 1).toNat = c.code ∧
    (s.raise c v).csrWord 2 = v) ∧
  ∀ (w : Word) (s t : State), s.fault = false → hostCmd w s = .next t →
    (t.fault = true → t = s.raise t.cause t.finfo ∧ t.cause ≠ .noFault) ∧
    (t.fault = false → t.cause = s.cause ∧ t.finfo = s.finfo)

/-- 60_exceptions.md section 1: the codes of the causes; a fault is raised by a command of its cause's row, only when the
row says, with the information word of the row; MAP_FAIL never. -/
def Obligations.EachCauseIsRaisedAsItsRowSays : Prop :=
  [Cause.noFault, .malformedInput, .shiftRange, .mapFail, .divZero, .capacity, .txtRange, .illegalCmd].map Cause.code =
    [0, 1, 2, 3, 4, 5, 6, 7] ∧
  ∀ (w : Word) (s t : State), s.Inv → s.fault = false → hostCmd w s = .next t → t.fault = true →
    (t.cause = .malformedInput → ∃ r base len k, decode w = .command (.parse r base len) ∧ k < len ∧
      hexval (s.memRead (BitVec.ofNat 12 (base + k))) = none ∧ t.finfo.toNat = base + k ∧ t.finfo.toNat ≤ 4095) ∧
    (t.cause = .shiftRange → ∃ rd ra n, (decode w = .command (.lsl rd ra n) ∨ decode w = .command (.lsr rd ra n)) ∧
      Config.maxw ≤ n ∧ t.finfo.toNat = n ∧ n ≤ 65535) ∧
    t.cause ≠ .mapFail ∧
    (t.cause = .divZero → ∃ rd ra rb, decode w = .command (.div rd ra rb) ∧ val (s.reg rb) = 0 ∧ t.finfo = 0#32) ∧
    (t.cause = .capacity → ∃ i, decode w = .command i ∧
      i.opcode ∈ [.apph, .insl, .cplw, .negw, .parse, .add, .mul, .lsl] ∧
      Config.cap < (Instr.result s i).length ∧ t.finfo.toNat = (Instr.result s i).length) ∧
    (t.cause = .txtRange → ∃ r base k, ((∃ len, decode w = .command (.parse r base len) ∧ k = len) ∨
      (decode w = .command (.tohex r base) ∧ k = max 1 (((s.reg r).length + 3) / 4))) ∧
      t.finfo.toNat = base + k ∧ 4097 ≤ t.finfo.toNat ∧ t.finfo.toNat ≤ 8190) ∧
    (t.cause = .illegalCmd → (∃ why, decode w = .illegal why) ∧ t.finfo = w)

/-- 60_exceptions.md R187: the first fault in the order of the checks is the one taken: an earlier check needs no premise
about a later one, and a later check has the earlier ones passed as its premises. -/
def Obligations.FaultsAreTakenInTheOrderOfTheChecks : Prop :=
  ∀ (w : Word) (s : State),
    (s.fault = true → hostCmd w s = .next s) ∧
    (s.fault = false →
      ((∃ why, decode w = .illegal why) → hostCmd w s = .next (s.raise .illegalCmd w)) ∧
      (∀ rd ra n, decode w = .command (.lsl rd ra n) ∨ decode w = .command (.lsr rd ra n) → Config.maxw ≤ n →
        hostCmd w s = .next (s.raise .shiftRange (BitVec.ofNat 32 n))) ∧
      (∀ r base len, decode w = .command (.parse r base len) → Config.txtsz < base + len →
        hostCmd w s = .next (s.raise .txtRange (BitVec.ofNat 32 (base + len)))) ∧
      (∀ r base, decode w = .command (.tohex r base) → Config.txtsz < base + max 1 (((s.reg r).length + 3) / 4) →
        hostCmd w s = .next (s.raise .txtRange (BitVec.ofNat 32 (base + max 1 (((s.reg r).length + 3) / 4))))) ∧
      (∀ rd ra rb, decode w = .command (.div rd ra rb) → val (s.reg rb) = 0 →
        hostCmd w s = .next (s.raise .divZero 0#32)) ∧
      (∀ r base len k, decode w = .command (.parse r base len) → base + len ≤ Config.txtsz → k < len →
        hexval (s.memRead (BitVec.ofNat 12 (base + k))) = none →
        (∀ j, k < j → j < len → hexval (s.memRead (BitVec.ofNat 12 (base + j))) ≠ none) →
        hostCmd w s = .next (s.raise .malformedInput (BitVec.ofNat 32 (base + k)))) ∧
      (∀ i, decode w = .command i → Config.cap < (Instr.result s i).length →
        (∀ rd ra n, i = .lsl rd ra n ∨ i = .lsr rd ra n → n < Config.maxw) →
        (∀ r base len, i = .parse r base len → base + len ≤ Config.txtsz ∧ s.AllHex base len) →
        (∀ rd ra rb, i = .div rd ra rb → val (s.reg rb) ≠ 0) →
        hostCmd w s = .next (s.raise .capacity (BitVec.ofNat 32 (Instr.result s i).length))))

/-- 10_state.md R12 (column Writes), R18, R19, R23 and R14: which command writes which register, flag and CSR; no other
command changes it. -/
def Obligations.EachCommandWritesOnlyWhatItsRowNames : Prop :=
  ∀ (i : Instr) (s t : State), exec i s = .next t →
    (∀ r, i.dest ≠ some r → t.reg r = s.reg r) ∧
    (t.ge ≠ s.ge → i.opcode = .cmpge) ∧
    (t.bit ≠ s.bit → i.opcode = .getb) ∧
    (t.diag ≠ s.diag → (i.opcode ∈ [.sub, .div] ∧ t.diag = true) ∨ (i.opcode = .clrdiag ∧ t.diag = false)) ∧
    (t.lenr ≠ s.lenr → i.opcode = .len) ∧
    (t.txtlen ≠ s.txtlen → i.opcode = .tohex) ∧
    (i.opcode ≠ .tohex → SameTxt s t) ∧
    t.sign = s.sign ∧ SameHost s t

/-- 10_state.md R12 (column Reads): a command's effect depends on no register but its sources: from two states that differ
only in other registers it writes the same result, flags, CSRs, text and fault. -/
def Obligations.EachCommandReadsOnlyItsSources : Prop :=
  ∀ (i : Instr) (s t t' : State) (f : RegFile), (∀ r ∈ i.sources, f.get r = s.reg r) →
    exec i s = .next t → exec i { s with regs := f } = .next t' →
    SameFault t t' ∧ SameFlags t t' ∧ SameCsrs t t' ∧ SameTxt t t' ∧ SameHost t t' ∧
      (∀ r, i.dest = some r → (t.reg r = t'.reg r ∨ (t.reg r = s.reg r ∧ t'.reg r = f.get r ∧ t.fault = true)))

/-- 10_state.md R13: the commit rule. -/
def Obligations.CommitWritesOneRegisterOrRaisesCapacity : Prop :=
  ∀ (s : State) (rd : Reg) (v : Bits),
    (Config.cap < v.length → s.commit rd v = s.raise .capacity (BitVec.ofNat 32 v.length) ∧
      OnlyFault .capacity (BitVec.ofNat 32 v.length) s (s.commit rd v)) ∧
    (v.length ≤ Config.cap → (s.commit rd v).reg rd = v ∧ OnlyReg rd s (s.commit rd v))

/-! ### Bit-sequence commands (40_bitseq.md) -/

/-- 40_bitseq.md R82. -/
def Obligations.ClrEmptiesTheRegister : Prop :=
  ∀ (rd : Reg) (s : State),
    encode (.clr rd) = BitVec.ofNat 32 (0x01 * 2 ^ 27 + rd.num * 2 ^ 24) ∧
    ∃ t, exec (.clr rd) s = .next t ∧ t.reg rd = [] ∧ OnlyReg rd s t

/-- 40_bitseq.md R83. The sign bits, which are all 0, stay 0 (log entry 6). -/
def Obligations.MovCopiesTheSequence : Prop :=
  ∀ (rd ra : Reg) (s : State), s.Inv →
    encode (.mov rd ra) = BitVec.ofNat 32 (0x02 * 2 ^ 27 + rd.num * 2 ^ 24 + ra.num * 2 ^ 21) ∧
    ∃ t, exec (.mov rd ra) s = .next t ∧ t.reg rd = s.reg ra ∧ OnlyReg rd s t ∧ t.sign = 0#8

/-- 40_bitseq.md R84. -/
def Obligations.ApphAppendsAtTheHighEnd : Prop :=
  ∀ (rd ra : Reg) (b : Bool) (s : State),
    encode (.apph rd ra b) = BitVec.ofNat 32 (0x03 * 2 ^ 27 + rd.num * 2 ^ 24 + ra.num * 2 ^ 21 + b.toNat) ∧
    ((s.reg ra).length < Config.cap →
      ∃ t, exec (.apph rd ra b) s = .next t ∧ t.reg rd = s.reg ra ++ [b] ∧
        (t.reg rd).length = (s.reg ra).length + 1 ∧
        val (t.reg rd) = val (s.reg ra) + b.toNat * 2 ^ (s.reg ra).length ∧ OnlyReg rd s t) ∧
    ((s.reg ra).length = Config.cap →
      exec (.apph rd ra b) s = .next (s.raise .capacity (BitVec.ofNat 32 (Config.cap + 1))))

/-- 40_bitseq.md R85. -/
def Obligations.InslInsertsAtTheLowEnd : Prop :=
  ∀ (rd ra : Reg) (b : Bool) (s : State),
    encode (.insl rd ra b) = BitVec.ofNat 32 (0x04 * 2 ^ 27 + rd.num * 2 ^ 24 + ra.num * 2 ^ 21 + b.toNat) ∧
    ((s.reg ra).length < Config.cap →
      ∃ t, exec (.insl rd ra b) s = .next t ∧ t.reg rd = [b] ++ s.reg ra ∧
        (t.reg rd).length = (s.reg ra).length + 1 ∧
        val (t.reg rd) = 2 * val (s.reg ra) + b.toNat ∧ OnlyReg rd s t) ∧
    ((s.reg ra).length = Config.cap →
      exec (.insl rd ra b) s = .next (s.raise .capacity (BitVec.ofNat 32 (Config.cap + 1))))

/-- 40_bitseq.md R86; the empty sequence stays empty (decision D11). -/
def Obligations.RemhRemovesTheHighestBit : Prop :=
  ∀ (rd ra : Reg) (s : State), s.Inv →
    encode (.remh rd ra) = BitVec.ofNat 32 (0x05 * 2 ^ 27 + rd.num * 2 ^ 24 + ra.num * 2 ^ 21) ∧
    ∃ t, exec (.remh rd ra) s = .next t ∧
      t.reg rd = (if (s.reg ra).length = 0 then [] else (s.reg ra).take ((s.reg ra).length - 1)) ∧
      (t.reg rd).length = max ((s.reg ra).length - 1) 0 ∧
      (1 ≤ (s.reg ra).length → val (t.reg rd) = val (s.reg ra) % 2 ^ ((s.reg ra).length - 1)) ∧ OnlyReg rd s t

/-- 40_bitseq.md R87. -/
def Obligations.RemlRemovesTheLowestBit : Prop :=
  ∀ (rd ra : Reg) (s : State), s.Inv →
    encode (.reml rd ra) = BitVec.ofNat 32 (0x06 * 2 ^ 27 + rd.num * 2 ^ 24 + ra.num * 2 ^ 21) ∧
    ∃ t, exec (.reml rd ra) s = .next t ∧ t.reg rd = (s.reg ra).drop 1 ∧
      (∀ i, bitAt (t.reg rd) i = bitAt (s.reg ra) (i + 1)) ∧
      (t.reg rd).length = max ((s.reg ra).length - 1) 0 ∧ val (t.reg rd) = val (s.reg ra) / 2 ∧ OnlyReg rd s t

/-- 40_bitseq.md R88. -/
def Obligations.StripGivesTheCanonicalSequence : Prop :=
  ∀ (rd ra : Reg) (s : State), s.Inv →
    encode (.strip rd ra) = BitVec.ofNat 32 (0x07 * 2 ^ 27 + rd.num * 2 ^ 24 + ra.num * 2 ^ 21) ∧
    ∃ t, exec (.strip rd ra) s = .next t ∧ t.reg rd = canon (val (s.reg ra)) ∧
      (∃ n, s.reg ra = t.reg rd ++ zeros n) ∧
      (t.reg rd).length = bitlen (val (s.reg ra)) ∧ val (t.reg rd) = val (s.reg ra) ∧
      isCanonical (t.reg rd) = true ∧ OnlyReg rd s t

/-- 40_bitseq.md R89. -/
def Obligations.CplwComplementsInTheWidth : Prop :=
  ∀ (rd ra : Reg) (size : Nat) (s : State), size < 2 ^ 16 →
    encode (.cplw rd ra size) = BitVec.ofNat 32 (0x08 * 2 ^ 27 + rd.num * 2 ^ 24 + ra.num * 2 ^ 21 + size) ∧
    (size ≤ Config.cap →
      ∃ t, exec (.cplw rd ra size) s = .next t ∧ (t.reg rd).length = size ∧
        (∀ i, i < size → bitAt (t.reg rd) i = !bitAt (s.reg ra) i) ∧
        val (t.reg rd) = 2 ^ size - 1 - val (s.reg ra) % 2 ^ size ∧ OnlyReg rd s t) ∧
    (Config.cap < size → exec (.cplw rd ra size) s = .next (s.raise .capacity (BitVec.ofNat 32 size)))

/-- 40_bitseq.md R90 and R80: a read beyond the length yields 0 and never fails. -/
def Obligations.GetbReadsOneBit : Prop :=
  ∀ (ra : Reg) (idx : Nat) (s : State), idx < 2 ^ 16 →
    encode (.getb ra idx) = BitVec.ofNat 32 (0x09 * 2 ^ 27 + ra.num * 2 ^ 21 + idx) ∧
    ∃ t, exec (.getb ra idx) s = .next t ∧
      (∀ b, (s.reg ra)[idx]? = some b → t.bit = b) ∧ ((s.reg ra).length ≤ idx → t.bit = false) ∧
      SameRegs s t ∧ SameFault s t ∧ t.diag = s.diag ∧ t.ge = s.ge ∧ SameCsrs s t ∧ SameTxt s t ∧ SameHost s t

/-- 40_bitseq.md R91. -/
def Obligations.LenMeasuresTheRawLength : Prop :=
  ∀ (ra : Reg) (s : State), s.Inv →
    encode (.len ra) = BitVec.ofNat 32 (0x0A * 2 ^ 27 + ra.num * 2 ^ 21) ∧
    ∃ t, exec (.len ra) s = .next t ∧ t.lenr.toNat = (s.reg ra).length ∧
      SameRegs s t ∧ SameFault s t ∧ SameFlags s t ∧ t.txtlen = s.txtlen ∧ t.sign = s.sign ∧ SameTxt s t ∧ SameHost s t

/-- 40_bitseq.md R92: the laws of the family. -/
def Obligations.BitSequenceLawsHold : Prop :=
  ∀ (s : Bits) (b : Bool) (n : Nat),
    removeHighest (s ++ [b]) = s ∧ ([b] ++ s).drop 1 = s ∧ val ([b] ++ s) = 2 * val s + b.toNat ∧
    val (s.drop 1) = val s / 2 ∧ strip (strip s) = strip s ∧ val (strip s) = val s ∧
    cplw (cplw s n) n = enc (val s % 2 ^ n) n ∧ (s.length = n → cplw (cplw s n) n = s) ∧ (cplw s n).length = n

/-! ### The hexadecimal codec (41_parse.md, 46_tohex.md) -/

/-- 41_parse.md R101 and 46_tohex.md R161: the 22 entries of the input table and the 16 of the output table, which invert
each other. -/
def Obligations.NibbleTablesAreTheSpecTables : Prop :=
  (∀ (c : Byte) (n : Nat), hexval c = some n ↔ (c, n) ∈
    [(0x30#8, 0), (0x31#8, 1), (0x32#8, 2), (0x33#8, 3), (0x34#8, 4), (0x35#8, 5), (0x36#8, 6), (0x37#8, 7),
      (0x38#8, 8), (0x39#8, 9), (0x41#8, 10), (0x61#8, 10), (0x42#8, 11), (0x62#8, 11), (0x43#8, 12), (0x63#8, 12),
      (0x44#8, 13), (0x64#8, 13), (0x45#8, 14), (0x65#8, 14), (0x46#8, 15), (0x66#8, 15)]) ∧
  (List.range 16).map hexchar =
    [0x30#8, 0x31#8, 0x32#8, 0x33#8, 0x34#8, 0x35#8, 0x36#8, 0x37#8, 0x38#8, 0x39#8,
      0x41#8, 0x42#8, 0x43#8, 0x44#8, 0x45#8, 0x46#8] ∧
  ∀ g : Nat, g < 16 → hexval (hexchar g) = some g

/-- 41_parse.md R100: the window check, the invalid character of highest address, the `4 * len` bits before the strip, the
canonical value of the string, the CAP check. -/
def Obligations.ParseReadsTheHexadecimalNumber : Prop :=
  ∀ (r : Reg) (base len : Nat) (s : State), base < 2 ^ 12 → len < 2 ^ 12 →
    encode (.parse r base len) = BitVec.ofNat 32 (0x0B * 2 ^ 27 + r.num * 2 ^ 24 + base * 2 ^ 12 + len) ∧
    (4096 < base + len →
      exec (.parse r base len) s = .next (s.raise .txtRange (BitVec.ofNat 32 (base + len)))) ∧
    (s.AllHex base len → bitlen (s.hexNumber base len) ≤ 4 * len ∧
      ∃ v, scanHex s.txt base len = .bits v ∧ v.length = 4 * len ∧ strip v = canon (s.hexNumber base len)) ∧
    (base + len ≤ 4096 → s.AllHex base len → bitlen (s.hexNumber base len) ≤ Config.cap →
      ∃ t, exec (.parse r base len) s = .next t ∧ t.reg r = canon (s.hexNumber base len) ∧
        val (t.reg r) = s.hexNumber base len ∧ isCanonical (t.reg r) = true ∧ OnlyReg r s t) ∧
    (base + len ≤ 4096 → s.AllHex base len → Config.cap < bitlen (s.hexNumber base len) →
      exec (.parse r base len) s = .next (s.raise .capacity (BitVec.ofNat 32 (bitlen (s.hexNumber base len))))) ∧
    (base + len ≤ 4096 → ∀ k, k < len → hexval (s.memRead (BitVec.ofNat 12 (base + k))) = none →
      (∀ j, k < j → j < len → hexval (s.memRead (BitVec.ofNat 12 (base + j))) ≠ none) →
      exec (.parse r base len) s = .next (s.raise .malformedInput (BitVec.ofNat 32 (base + k))))

/-- 46_tohex.md R160 and R162: the characters written, where they go, TXTLEN, and nothing else; the window check comes
before any write. -/
def Obligations.TohexWritesTheDigits : Prop :=
  ∀ (r : Reg) (base k : Nat) (s : State), base < 2 ^ 12 → k = max 1 (((s.reg r).length + 3) / 4) →
    encode (.tohex r base) = BitVec.ofNat 32 (0x14 * 2 ^ 27 + r.num * 2 ^ 24 + base * 2 ^ 12) ∧
    (base + k ≤ 4096 →
      ∃ t, exec (.tohex r base) s = .next t ∧
        (∀ j, j < k → t.memRead (BitVec.ofNat 12 (base + k - 1 - j)) =
          hexchar ((bitAt (s.reg r) (4 * j)).toNat + 2 * (bitAt (s.reg r) (4 * j + 1)).toNat +
            4 * (bitAt (s.reg r) (4 * j + 2)).toNat + 8 * (bitAt (s.reg r) (4 * j + 3)).toNat)) ∧
        (∀ a : TxtAddr, a.toNat < base ∨ base + k ≤ a.toNat → t.memRead a = s.memRead a) ∧
        t.txtlen.toNat = k ∧ SameRegs s t ∧ SameFault s t ∧ SameFlags s t ∧ t.lenr = s.lenr ∧ t.sign = s.sign ∧
        SameHost s t) ∧
    (4096 < base + k → exec (.tohex r base) s = .next (s.raise .txtRange (BitVec.ofNat 32 (base + k))))

/-- 41_parse.md R103: PARSE of a valid string of at least one character, then TOHEX of the same register, writes the string
without its leading zero digits (a sole zero stays) and in upper case; the empty string comes back as the single digit 0.
The string's number must fit a register, and the string without its leading zeros the output window. -/
def Obligations.TohexAfterParseRoundTrips : Prop :=
  (∀ (r : Reg) (base len out : Nat) (s : State), base + len ≤ 4096 → 1 ≤ len → len < 2 ^ 12 → out < 2 ^ 12 →
    s.AllHex base len → bitlen (s.hexNumber base len) ≤ Config.cap →
    out + max 1 ((bitlen (s.hexNumber base len) + 3) / 4) ≤ 4096 →
    ∃ t u z, exec (.parse r base len) s = .next t ∧ exec (.tohex r out) t = .next u ∧
      z < len ∧ (∀ j, j < z → s.digitAt (base + j) = 0) ∧ (s.digitAt (base + z) ≠ 0 ∨ z + 1 = len) ∧
      u.txtlen.toNat = len - z ∧
      ∀ j, j < len - z → u.memRead (BitVec.ofNat 12 (out + j)) = hexchar (s.digitAt (base + z + j))) ∧
  ∀ (r : Reg) (base out : Nat) (s : State), base < 2 ^ 12 → out < 2 ^ 12 →
    ∃ t u, exec (.parse r base 0) s = .next t ∧ exec (.tohex r out) t = .next u ∧
      u.txtlen.toNat = 1 ∧ u.memRead (BitVec.ofNat 12 out) = 0x30#8

/-! ### Addition and subtraction (42_add_sub.md) -/

/-- 42_add_sub.md R112: the closed form of the ripple-carry adder of R111. -/
def Obligations.AdderHasItsClosedForm : Prop :=
  ∀ x y : Bits, val (add x y) = val x + val y ∧
    (add x y).length = max (max x.length y.length) (bitlen (val x + val y)) ∧
    add x y = enc (val x + val y) (max (max x.length y.length) (bitlen (val x + val y)))

/-- 42_add_sub.md R113 (a) to (d): commutative, associative, canonical in and canonical out; and its example. -/
def Obligations.AdderLawsHold : Prop :=
  (∀ x y : Bits, add x y = add y x) ∧
  (∀ x y z : Bits, add (add x y) z = add x (add y z) ∧ add (add x y) z = enc (val x + val y + val z)
    (max (max (max x.length y.length) z.length) (bitlen (val x + val y + val z)))) ∧
  (∀ x y : Bits, isCanonical x = true → isCanonical y = true → isCanonical (add x y) = true) ∧
  add [true, false, false] [true] = [false, true, false]

/-- 42_add_sub.md R110: the sum in the exact length produced; CAPACITY exactly when that is longer than CAP, which needs an
operand of CAP bits; an empty operand gives the other operand unchanged. -/
def Obligations.AddCommandAdds : Prop :=
  ∀ (rd ra rb : Reg) (s : State) (n : Nat),
    n = max (max (s.reg ra).length (s.reg rb).length) (bitlen (val (s.reg ra) + val (s.reg rb))) →
    encode (.add rd ra rb) =
      BitVec.ofNat 32 (0x0C * 2 ^ 27 + rd.num * 2 ^ 24 + ra.num * 2 ^ 21 + rb.num * 2 ^ 18) ∧
    (n ≤ Config.cap → ∃ t, exec (.add rd ra rb) s = .next t ∧
      t.reg rd = enc (val (s.reg ra) + val (s.reg rb)) n ∧ val (t.reg rd) = val (s.reg ra) + val (s.reg rb) ∧
      OnlyReg rd s t) ∧
    (Config.cap < n → exec (.add rd ra rb) s = .next (s.raise .capacity (BitVec.ofNat 32 n)) ∧
      (s.Inv → n = Config.cap + 1 ∧ max (s.reg ra).length (s.reg rb).length = Config.cap)) ∧
    ∀ x : Bits, add x [] = x ∧ add [] x = x

/-- 42_add_sub.md R114. -/
def Obligations.NegwNegatesInTheWidth : Prop :=
  ∀ (rd ra : Reg) (width m n : Nat) (s : State), width < 2 ^ 16 → m = val (s.reg ra) % 2 ^ width →
    n = (if m = 0 then width + 1 else width) →
    encode (.negw rd ra width) = BitVec.ofNat 32 (0x0E * 2 ^ 27 + rd.num * 2 ^ 24 + ra.num * 2 ^ 21 + width) ∧
    (n ≤ Config.cap → ∃ t, exec (.negw rd ra width) s = .next t ∧ val (t.reg rd) = 2 ^ width - m ∧
      (t.reg rd).length = n ∧ t.reg rd = add (cplw (s.reg ra) width) [true] ∧ OnlyReg rd s t) ∧
    (Config.cap < n → exec (.negw rd ra width) s = .next (s.raise .capacity (BitVec.ofNat 32 n)))

/-- 42_add_sub.md R115 and R117: the supported subtraction gives the canonical difference modulo `2^len(a)`, the true
difference when `val(a) >= val(b)` and a silent wrap otherwise, with no fault and no flag; the unsupported shape gives the
empty sequence and sets DIAG. -/
def Obligations.SubSubtractsModuloTheMinuendWidth : Prop :=
  (∀ (rd ra rb : Reg) (s : State), s.Inv →
    encode (.sub rd ra rb) =
      BitVec.ofNat 32 (0x0D * 2 ^ 27 + rd.num * 2 ^ 24 + ra.num * 2 ^ 21 + rb.num * 2 ^ 18) ∧
    ((s.reg rb).length ≤ (s.reg ra).length →
      ∃ t, exec (.sub rd ra rb) s = .next t ∧
        (val (s.reg rb) ≤ val (s.reg ra) → t.reg rd = canon (val (s.reg ra) - val (s.reg rb))) ∧
        (val (s.reg ra) < val (s.reg rb) →
          t.reg rd = canon (2 ^ (s.reg ra).length + val (s.reg ra) - val (s.reg rb))) ∧
        t.reg rd = strip ((add (s.reg ra) (negw (s.reg rb) (s.reg ra).length)).take (s.reg ra).length) ∧
        OnlyReg rd s t) ∧
    ((s.reg ra).length < (s.reg rb).length →
      ∃ t, exec (.sub rd ra rb) s = .next t ∧ t.reg rd = [] ∧ t.diag = true ∧ SameFault s t)) ∧
  ∀ a b : Bits, b.length ≤ a.length → val (negw b a.length) = 2 ^ a.length - val b ∧
    val (add a (negw b a.length)) = val a + 2 ^ a.length - val b

/-- 42_add_sub.md R116: the unsupported operand shape writes the empty sequence and sets DIAG; it is no fault. The test is
on raw lengths; for canonical operands the shape implies a smaller value. -/
def Obligations.SubOfUnsupportedShapeSetsTheDiagnostic : Prop :=
  ∀ (rd ra rb : Reg) (s : State), (s.reg ra).length < (s.reg rb).length →
    (∃ t, exec (.sub rd ra rb) s = .next t ∧ t.reg rd = [] ∧ t.diag = true ∧ SameFault s t ∧
      SameRegsBut rd s t ∧ t.ge = s.ge ∧ t.bit = s.bit ∧ SameCsrs s t ∧ SameTxt s t ∧ SameHost s t) ∧
    (isCanonical (s.reg ra) = true → isCanonical (s.reg rb) = true → val (s.reg ra) < val (s.reg rb))

/-- 42_add_sub.md R118: SUB followed by ADD of the same R[rb] gives the minuend's value back, bit for bit for canonical
operands, when the shape is supported and `val(a) >= val(b)`; the sum is `2^w + val(a)` when `val(a) < val(b)`, and `b`
when the shape is unsupported. -/
def Obligations.AddUndoesSub : Prop :=
  (∀ (rd rd' ra rb : Reg) (s : State), s.Inv → rd ≠ rb → (s.reg rb).length ≤ (s.reg ra).length →
    val (s.reg rb) ≤ val (s.reg ra) →
    ∃ t u, exec (.sub rd ra rb) s = .next t ∧ exec (.add rd' rd rb) t = .next u ∧
      val (u.reg rd') = val (s.reg ra) ∧
      (isCanonical (s.reg ra) = true → isCanonical (s.reg rb) = true → u.reg rd' = s.reg ra)) ∧
  (∀ a b : Bits, b.length ≤ a.length → val a < val b → val (add (sub a b).1 b) = 2 ^ a.length + val a) ∧
  ∀ a b : Bits, a.length < b.length → add (sub a b).1 b = b

/-! ### Multiplication (43_mul.md) -/

/-- 43_mul.md R132: the closed form of the shift-and-add multiplier of R131. -/
def Obligations.MultiplierHasItsClosedForm : Prop :=
  ∀ a b left right : Bits,
    (left, right) = (if a.length < b.length then (b, a) else (a, b)) →
    (val right = 0 → mul a b = []) ∧
    (val right ≠ 0 → val (mul a b) = val a * val b ∧
      (mul a b).length = max (left.length + (bitlen (val right) - 1)) (bitlen (val a * val b)))

/-- 43_mul.md R130: the product; CAPACITY exactly when it is longer than CAP, and never when both operands are at most MAXW
bits long. -/
def Obligations.MulCommandMultiplies : Prop :=
  ∀ (rd ra rb : Reg) (s : State),
    encode (.mul rd ra rb) =
      BitVec.ofNat 32 (0x0F * 2 ^ 27 + rd.num * 2 ^ 24 + ra.num * 2 ^ 21 + rb.num * 2 ^ 18) ∧
    ((mul (s.reg ra) (s.reg rb)).length ≤ Config.cap →
      ∃ t, exec (.mul rd ra rb) s = .next t ∧ t.reg rd = mul (s.reg ra) (s.reg rb) ∧
        val (t.reg rd) = val (s.reg ra) * val (s.reg rb) ∧ OnlyReg rd s t) ∧
    (Config.cap < (mul (s.reg ra) (s.reg rb)).length →
      exec (.mul rd ra rb) s = .next (s.raise .capacity (BitVec.ofNat 32 (mul (s.reg ra) (s.reg rb)).length))) ∧
    ((s.reg ra).length ≤ Config.maxw → (s.reg rb).length ≤ Config.maxw →
      (mul (s.reg ra) (s.reg rb)).length ≤ Config.cap)

/-- 43_mul.md R133: the laws of MUL, as equations of values always, and bit for bit on canonical operands. -/
def Obligations.MultiplierLawsHold : Prop :=
  (∀ a b : Bits, val (mul a b) = val a * val b) ∧
  (∀ a b : Bits, isCanonical a = true → isCanonical b = true → isCanonical (mul a b) = true ∧ mul a b = mul b a) ∧
  (∀ a : Bits, 1 ≤ a.length → mul a [true] = a) ∧ mul [] [true] = [] ∧ ∀ a : Bits, val (mul a []) = 0

/-! ### Division and comparison (44_div.md) -/

/-- 44_div.md R143: the closed form of the restoring divider for a canonical divisor, with the floor-division bound. -/
def Obligations.DividerHasItsClosedForm : Prop :=
  ∀ a b : Bits, isCanonical b = true → val b ≠ 0 →
    div a b = (canon (val a / val b), false) ∧
    val (div a b).1 * val b ≤ val a ∧ val a < val (div a b).1 * val b + val b

/-- 44_div.md R142: a division raises the diagnostic only for a divisor with most-significant zero bits, and does so in the
rule's example. -/
def Obligations.DividerDiagnosticNeedsANonCanonicalDivisor : Prop :=
  (∀ a b : Bits, val b ≠ 0 → (div a b).2 = true → isCanonical b = false) ∧
  div [true, true, false, true] [true, true, false, false] = ([false, true], true)

/-- 44_div.md R140: a divisor of value 0 raises DIV_ZERO(0); for any other, canonical or not, DIV writes the canonical
quotient of the long division, sets DIAG when a subtraction inside it met the unsupported shape, and changes nothing
else. -/
def Obligations.DivCommandDivides : Prop :=
  ∀ (rd ra rb : Reg) (s : State), s.Inv →
    encode (.div rd ra rb) =
      BitVec.ofNat 32 (0x10 * 2 ^ 27 + rd.num * 2 ^ 24 + ra.num * 2 ^ 21 + rb.num * 2 ^ 18) ∧
    (val (s.reg rb) = 0 → exec (.div rd ra rb) s = .next (s.raise .divZero 0#32)) ∧
    (val (s.reg rb) ≠ 0 → ∃ t, exec (.div rd ra rb) s = .next t ∧ t.reg rd = (div (s.reg ra) (s.reg rb)).1 ∧
      isCanonical (t.reg rd) = true ∧ (t.reg rd).length ≤ (s.reg ra).length ∧
      t.diag = (s.diag || (div (s.reg ra) (s.reg rb)).2) ∧
      SameRegsBut rd s t ∧ SameFault s t ∧ t.ge = s.ge ∧ t.bit = s.bit ∧ SameCsrs s t ∧ SameTxt s t ∧ SameHost s t)

/-- 44_div.md R144 and 60_exceptions.md R180: a divisor of value 0, of any length, raises DIV_ZERO(0), whatever the
dividend. -/
def Obligations.DivByZeroRaisesDivZero : Prop :=
  ∀ (rd ra rb : Reg) (s : State), val (s.reg rb) = 0 → exec (.div rd ra rb) s = .next (s.raise .divZero 0#32)

/-- 44_div.md R146: the comparison by value is what the bit-serial comparator network computes. -/
def Obligations.ComparatorNetworkComparesValues : Prop :=
  ∀ x y : Bits, geScan x y (max x.length y.length) = decide (val x ≥ val y) ∧ ge x y = decide (val x ≥ val y)

/-- 44_div.md R145. -/
def Obligations.CmpgeWritesGe : Prop :=
  ∀ (ra rb : Reg) (s : State),
    encode (.cmpge ra rb) = BitVec.ofNat 32 (0x11 * 2 ^ 27 + ra.num * 2 ^ 21 + rb.num * 2 ^ 18) ∧
    ∃ t, exec (.cmpge ra rb) s = .next t ∧ (t.ge = true ↔ val (s.reg ra) ≥ val (s.reg rb)) ∧
      SameRegs s t ∧ SameFault s t ∧ t.diag = s.diag ∧ t.bit = s.bit ∧ SameCsrs s t ∧ SameTxt s t ∧ SameHost s t

/-! ### Shifts (45_shift.md) -/

/-- 45_shift.md R151: the count's bound, the zero bits inserted, the length, the value and the CAP check. -/
def Obligations.LslShiftsLeft : Prop :=
  ∀ (rd ra : Reg) (n : Nat) (s : State), n < 2 ^ 16 →
    encode (.lsl rd ra n) = BitVec.ofNat 32 (0x12 * 2 ^ 27 + rd.num * 2 ^ 24 + ra.num * 2 ^ 21 + n) ∧
    (n < Config.maxw → (s.reg ra).length + n ≤ Config.cap →
      ∃ t, exec (.lsl rd ra n) s = .next t ∧ t.reg rd = zeros n ++ s.reg ra ∧
        (t.reg rd).length = (s.reg ra).length + n ∧ val (t.reg rd) = val (s.reg ra) * 2 ^ n ∧ OnlyReg rd s t) ∧
    (n < Config.maxw → Config.cap < (s.reg ra).length + n →
      exec (.lsl rd ra n) s = .next (s.raise .capacity (BitVec.ofNat 32 ((s.reg ra).length + n)))) ∧
    (Config.maxw ≤ n → exec (.lsl rd ra n) s = .next (s.raise .shiftRange (BitVec.ofNat 32 n)))

/-- 45_shift.md R154: the count's bound, the bits removed, their number and the value left. -/
def Obligations.LsrShiftsRight : Prop :=
  ∀ (rd ra : Reg) (n : Nat) (s : State), s.Inv → n < 2 ^ 16 →
    encode (.lsr rd ra n) = BitVec.ofNat 32 (0x13 * 2 ^ 27 + rd.num * 2 ^ 24 + ra.num * 2 ^ 21 + n) ∧
    (n < Config.maxw →
      ∃ t, exec (.lsr rd ra n) s = .next t ∧ t.reg rd = (s.reg ra).drop n ∧
        (t.reg rd).length = max ((s.reg ra).length - n) 0 ∧ val (t.reg rd) = val (s.reg ra) / 2 ^ n ∧
        ((s.reg ra).length ≤ n → t.reg rd = []) ∧ OnlyReg rd s t) ∧
    (Config.maxw ≤ n → exec (.lsr rd ra n) s = .next (s.raise .shiftRange (BitVec.ofNat 32 n)))

/-- 45_shift.md R156 and R157: canonical forms and the shift identities. -/
def Obligations.ShiftLawsHold : Prop :=
  ∀ (s : Bits) (n : Nat),
    (isCanonical s = true → s ≠ [] → isCanonical (lsl s n) = true ∧ lsl s n = mul s (canon (2 ^ n))) ∧
    (0 < n → isCanonical (lsl [] n) = false ∧ lsl [] n = zeros n ∧ mul [] (canon (2 ^ n)) = []) ∧
    (isCanonical s = true → isCanonical (lsr s n) = true) ∧
    lsr (lsl s n) n = s ∧ val (lsl s n) = val s * 2 ^ n

/-! ### The system command (47_system.md) -/

/-- 47_system.md R170: CLRDIAG clears DIAG and writes nothing else; like every command it is discarded while FAULT = 1. -/
def Obligations.ClrdiagClearsTheDiagnostic : Prop :=
  ∀ s : State, encode .clrdiag = 0xA8000000#32 ∧
    (∃ t, exec .clrdiag s = .next t ∧ t.diag = false ∧ t.ge = s.ge ∧ t.bit = s.bit ∧
      SameRegs s t ∧ SameFault s t ∧ SameCsrs s t ∧ SameTxt s t ∧ SameHost s t) ∧
    (s.fault = true → hostCmd 0xA8000000#32 s = .next s)
end

