-- ==== Sys2Proof/Laws/BitSeq.lean ====
section
/-! SUPPORT. The laws of the bit-sequence primitives: lengths, values, bits, and the canonical form. -/

namespace Sys2Proof.Machine

@[simp] theorem val_nil : val [] = 0 := rfl

@[simp] theorem val_cons (b : Bool) (s : Bits) : val (b :: s) = b.toNat + 2 * val s := rfl

theorem bit_add_div_two (b : Bool) (m : Nat) : (b.toNat + 2 * m) / 2 = m := by
  have := b.toNat_lt
  omega

theorem bit_add_mod (b : Bool) (m n : Nat) : (b.toNat + 2 * m) % 2 ^ (n + 1) = b.toNat + 2 * (m % 2 ^ n) := by
  rw [Nat.pow_succ, Nat.mul_comm (2 ^ n), Nat.mod_mul, bit_add_div_two]
  have := b.toNat_lt
  omega

theorem val_lt_two_pow (s : Bits) : val s < 2 ^ s.length := by
  induction s with
  | nil => simp
  | cons b s ih => cases b <;> simp [Nat.pow_succ] <;> omega

theorem val_append (s t : Bits) : val (s ++ t) = val s + 2 ^ s.length * val t := by
  induction s with
  | nil => simp
  | cons b s ih => simp only [List.cons_append, val_cons, ih, List.length_cons, Nat.pow_succ]; ring

@[simp] theorem length_zeros (n : Nat) : (zeros n).length = n := by simp [zeros]

@[simp] theorem val_zeros (n : Nat) : val (zeros n) = 0 := by
  induction n with
  | zero => rfl
  | succ n ih => simpa [zeros, List.replicate_succ] using ih

theorem zeros_succ (n : Nat) : zeros (n + 1) = false :: zeros n := rfl

/-- A value and its length determine the sequence (00_scope.md R6: `enc` is unique). -/
theorem eq_of_val_eq {s t : Bits} (hl : s.length = t.length) (hv : val s = val t) : s = t := by
  induction s generalizing t with
  | nil => cases t <;> simp_all
  | cons b s ih =>
    obtain _ | ⟨c, t⟩ := t
    · simp at hl
    · simp only [val_cons] at hv
      have hb : b = c := by cases b <;> cases c <;> simp_all <;> omega
      subst hb
      rw [ih (by simpa using hl) (by omega)]

@[simp] theorem length_enc (v l : Nat) : (enc v l).length = l := by
  induction l generalizing v with
  | zero => rfl
  | succ l ih => simp [enc, ih]

theorem val_enc (v l : Nat) : val (enc v l) = v % 2 ^ l := by
  induction l generalizing v with
  | zero => simp [enc, Nat.mod_one]
  | succ l ih =>
    have hb : (v % 2 == 1).toNat = v % 2 := by rcases Nat.mod_two_eq_zero_or_one v with h | h <;> simp [h]
    rw [enc, val_cons, ih, hb, Nat.pow_succ, Nat.mul_comm (2 ^ l), Nat.mod_mul]

theorem enc_val (s : Bits) : enc (val s) s.length = s :=
  eq_of_val_eq (by simp) (by rw [val_enc, Nat.mod_eq_of_lt (val_lt_two_pow s)])

theorem bitlen_zero : bitlen 0 = 0 := rfl

/-- `bitlen(v) <= L` exactly when v fits L bits (00_scope.md R5). -/
theorem bitlen_le_iff (v l : Nat) : bitlen v ≤ l ↔ v < 2 ^ l := by
  unfold bitlen
  split
  · simp_all
  · rename_i h
    rw [Nat.succ_le_iff, Nat.log2_lt h]

theorem lt_two_pow_bitlen (v : Nat) : v < 2 ^ bitlen v := (bitlen_le_iff v _).1 le_rfl

/-- `2^(bitlen(v)-1) <= v` for v > 0 (00_scope.md R5). -/
theorem two_pow_le_of_lt_bitlen {v l : Nat} (h : l < bitlen v) : 2 ^ l ≤ v := by
  by_contra hc
  have := (bitlen_le_iff v l).2 (by omega)
  omega

theorem bitlen_val_le (s : Bits) : bitlen (val s) ≤ s.length := (bitlen_le_iff _ _).2 (val_lt_two_pow s)

theorem bitlen_eq {v l : Nat} (h1 : 2 ^ l ≤ v) (h2 : v < 2 ^ (l + 1)) : bitlen v = l + 1 := by
  refine Nat.le_antisymm ((bitlen_le_iff _ _).2 h2) ?_
  by_contra hc
  have := (bitlen_le_iff v l).1 (by omega)
  omega

@[simp] theorem length_canon (v : Nat) : (canon v).length = bitlen v := by simp [canon]

@[simp] theorem val_canon (v : Nat) : val (canon v) = v := by
  rw [canon, val_enc, Nat.mod_eq_of_lt (lt_two_pow_bitlen v)]

theorem canon_zero : canon 0 = [] := rfl

/-- The canonical sequences are those whose length is the bit length of their value (00_scope.md R6). -/
theorem isCanonical_iff (s : Bits) : isCanonical s = true ↔ s.length = bitlen (val s) := by
  rcases List.eq_nil_or_concat s with rfl | ⟨t, b, rfl⟩
  · simp [isCanonical, bitlen]
  · have hlt := val_lt_two_pow t
    have hv : val (t ++ [b]) = val t + 2 ^ t.length * b.toNat := by simp [val_append]
    cases b
    · have hle : bitlen (val t) ≤ t.length := bitlen_val_le t
      simp only [isCanonical, List.concat_eq_append, List.getLast?_append, hv]
      simp
      omega
    · have hb : bitlen (val t + 2 ^ t.length) = t.length + 1 :=
        bitlen_eq (by omega) (by rw [Nat.pow_succ]; omega)
      simp [isCanonical, val_append, hb]

theorem canon_of_isCanonical {s : Bits} (h : isCanonical s = true) : canon (val s) = s := by
  rw [canon, ← (isCanonical_iff s).1 h, enc_val]

theorem isCanonical_canon (v : Nat) : isCanonical (canon v) = true := by simp [isCanonical_iff]

theorem length_pos_of_val_ne_zero {s : Bits} (h : val s ≠ 0) : 0 < s.length := by
  cases s <;> simp_all

/-- STRIP gives the canonical sequence of the same value (40_bitseq.md R88). -/
theorem strip_eq_canon (s : Bits) : strip s = canon (val s) := by
  have key : ∀ s : Bits, val (strip s) = val s ∧ isCanonical (strip s) = true := by
    intro s
    induction s with
    | nil => simp [strip, isCanonical]
    | cons b s ih =>
      obtain ⟨hv, hc⟩ := ih
      rw [strip]
      cases hs : strip s with
      | nil =>
        rw [hs, val_nil] at hv
        cases b <;> simp [isCanonical, ← hv]
      | cons c t =>
        rw [hs] at hv hc
        exact ⟨by simp only [val_cons] at hv ⊢; omega, by simpa [isCanonical, List.getLast?_cons] using hc⟩
  rw [← (key s).1, canon_of_isCanonical (key s).2]

@[simp] theorem val_strip (s : Bits) : val (strip s) = val s := by simp [strip_eq_canon]

theorem length_strip (s : Bits) : (strip s).length = bitlen (val s) := by simp [strip_eq_canon]

theorem length_strip_le (s : Bits) : (strip s).length ≤ s.length := by
  rw [length_strip]; exact bitlen_val_le s

theorem val_take (s : Bits) (n : Nat) : val (s.take n) = val s % 2 ^ n := by
  induction s generalizing n with
  | nil => simp
  | cons b s ih =>
    cases n with
    | zero => simp [Nat.mod_one]
    | succ n =>
      rw [List.take_succ_cons, val_cons, ih, val_cons, bit_add_mod]

theorem val_drop (s : Bits) (n : Nat) : val (s.drop n) = val s / 2 ^ n := by
  induction s generalizing n with
  | nil => simp
  | cons b s ih =>
    cases n with
    | zero => simp
    | succ n =>
      rw [List.drop_succ_cons, ih, val_cons, Nat.pow_succ, Nat.mul_comm (2 ^ n), ← Nat.div_div_eq_div_mul,
        bit_add_div_two]

/-- Bit i of a sequence is bit i of its value (00_scope.md R6, 40_bitseq.md R80). -/
theorem bitAt_eq_testBit (s : Bits) (i : Nat) : bitAt s i = (val s).testBit i := by
  induction s generalizing i with
  | nil => simp [bitAt]
  | cons b s ih =>
    cases i with
    | zero => cases b <;> simp [bitAt, Nat.testBit_zero]
    | succ i =>
      rw [Nat.testBit_succ, val_cons, bit_add_div_two, ← ih i]
      simp [bitAt]

@[simp] theorem length_cplw (s : Bits) (n : Nat) : (cplw s n).length = n := by
  induction n generalizing s with
  | zero => rfl
  | succ n ih => simp [cplw, ih]

theorem val_cplw (s : Bits) (n : Nat) : val (cplw s n) + val s % 2 ^ n + 1 = 2 ^ n := by
  induction n generalizing s with
  | zero => simp [cplw, Nat.mod_one]
  | succ n ih =>
    have := ih s.tail
    cases s with
    | nil => simp only [cplw, List.headD_nil, List.tail_nil, val_cons, val_nil] at *; simp [Nat.pow_succ] at *; omega
    | cons b s =>
      simp only [cplw, List.headD_cons, List.tail_cons, val_cons] at *
      rw [bit_add_mod, Nat.pow_succ]
      cases b <;> simp <;> omega

theorem bitAt_cplw (s : Bits) (n i : Nat) (h : i < n) : bitAt (cplw s n) i = !bitAt s i := by
  induction n generalizing s i with
  | zero => omega
  | succ n ih =>
    cases i with
    | zero => cases s <;> simp [cplw, bitAt]
    | succ i =>
      have := ih s.tail i (by omega)
      cases s <;> simp_all [cplw, bitAt]

@[simp] theorem length_lsl (s : Bits) (n : Nat) : (lsl s n).length = s.length + n := by
  simp [lsl, Nat.add_comm]

@[simp] theorem val_lsl (s : Bits) (n : Nat) : val (lsl s n) = 2 ^ n * val s := by simp [lsl, val_append]

@[simp] theorem length_lsr (s : Bits) (n : Nat) : (lsr s n).length = s.length - n := by simp [lsr]

theorem val_lsr (s : Bits) (n : Nat) : val (lsr s n) = val s / 2 ^ n := val_drop s n

end Sys2Proof.Machine
end

