-- ==== Sys2Proof/Laws/Arith.lean ====
section
/-! SUPPORT. What the adder, the two's complement, the subtractor, the multiplier and the divider compute: values and
lengths, one lemma each; the closed forms of 42_add_sub.md, 43_mul.md and 44_div.md rest on them. -/

namespace Sys2Proof.Machine

theorem val_eq_head_add_tail (s : Bits) : val s = (s.headD false).toNat + 2 * val s.tail := by cases s <;> rfl

/-- The value after the ripple: the sum and the carry in (42_add_sub.md R111). -/
theorem val_addFrom (n : Nat) (x y : Bits) (c : Bool) (hx : x.length ≤ n) (hy : y.length ≤ n) :
    val (addFrom n x y c) = val x + val y + c.toNat := by
  induction n generalizing x y c with
  | zero =>
    rw [List.length_eq_zero_iff.1 (by omega : x.length = 0), List.length_eq_zero_iff.1 (by omega : y.length = 0)]
    cases c <;> rfl
  | succ n ih =>
    rw [addFrom, val_cons, ih _ _ _ (by simp; omega) (by simp; omega), val_eq_head_add_tail x, val_eq_head_add_tail y]
    generalize x.headD false = a, y.headD false = b
    cases a <;> cases b <;> cases c <;> simp <;> omega

/-- The length after the ripple: one more than the positions exactly when the sum does not fit them (42_add_sub.md R111). -/
theorem length_addFrom (n : Nat) (x y : Bits) (c : Bool) (hx : x.length ≤ n) (hy : y.length ≤ n) :
    (addFrom n x y c).length = if val x + val y + c.toNat < 2 ^ n then n else n + 1 := by
  induction n generalizing x y c with
  | zero =>
    rw [List.length_eq_zero_iff.1 (by omega : x.length = 0), List.length_eq_zero_iff.1 (by omega : y.length = 0)]
    cases c <;> rfl
  | succ n ih =>
    rw [addFrom, List.length_cons, ih _ _ _ (by simp; omega) (by simp; omega), val_eq_head_add_tail x,
      val_eq_head_add_tail y, Nat.pow_succ]
    generalize x.headD false = a, y.headD false = b
    cases a <;> cases b <;> cases c <;> simp <;> split <;> split <;> omega

theorem val_add (x y : Bits) : val (add x y) = val x + val y := by
  simp [add, val_addFrom]

theorem length_add (x y : Bits) :
    (add x y).length = max (max x.length y.length) (bitlen (val x + val y)) := by
  rw [add, length_addFrom _ _ _ _ (le_max_left _ _) (le_max_right _ _)]
  have hx := val_lt_two_pow x
  have hy := val_lt_two_pow y
  have hxn : 2 ^ x.length ≤ 2 ^ max x.length y.length := Nat.pow_le_pow_right (by simp) (le_max_left _ _)
  have hyn : 2 ^ y.length ≤ 2 ^ max x.length y.length := Nat.pow_le_pow_right (by simp) (le_max_right _ _)
  simp only [Bool.toNat_false, Nat.add_zero]
  split
  · rename_i h
    have := (bitlen_le_iff _ _).2 h
    omega
  · rename_i h
    rw [bitlen_eq (l := max x.length y.length) (by omega) (by rw [Nat.pow_succ]; omega)]
    omega

/-- Two's complement in a width: `2^w - (val(s) mod 2^w)` (42_add_sub.md R114). -/
theorem val_negw (s : Bits) (w : Nat) : val (negw s w) + val s % 2 ^ w = 2 ^ w := by
  have := val_cplw s w
  simp only [negw, val_add, val_cons, val_nil, Bool.toNat_true]
  omega

theorem length_negw (s : Bits) (w : Nat) : (negw s w).length = if val s % 2 ^ w = 0 then w + 1 else w := by
  have h := val_cplw s w
  have hp : 0 < 2 ^ w := Nat.two_pow_pos w
  have hv : val (cplw s w) + val [true] = 2 ^ w - val s % 2 ^ w := by simp; omega
  rw [negw, length_add, hv, length_cplw, List.length_singleton]
  split
  · rename_i h0
    rw [h0, Nat.sub_zero, bitlen_eq (l := w) le_rfl (by rw [Nat.pow_succ]; omega)]
    omega
  · rename_i h0
    have hb := (bitlen_le_iff (2 ^ w - val s % 2 ^ w) w).2 (by omega)
    have hw : w ≠ 0 := by rintro rfl; simp [Nat.mod_one] at h0
    omega

theorem sub_unsupported {a b : Bits} (h : a.length < b.length) : sub a b = ([], true) := by simp [sub, h]

/-- The supported subtraction: the difference modulo `2^len(a)`, canonical, no diagnostic (42_add_sub.md R115, R117). -/
theorem sub_supported {a b : Bits} (h : b.length ≤ a.length) :
    sub a b = (canon ((val a + 2 ^ a.length - val b) % 2 ^ a.length), false) := by
  have hb : val b < 2 ^ a.length := lt_of_lt_of_le (val_lt_two_pow b) (Nat.pow_le_pow_right (by simp) h)
  have hn := val_negw b a.length
  rw [Nat.mod_eq_of_lt hb] at hn
  rw [sub, if_neg (by omega), strip_eq_canon, val_take, val_add]
  congr 3
  omega

theorem length_sub_le (a b : Bits) : (sub a b).1.length ≤ a.length := by
  unfold sub
  split
  · simp
  · exact le_trans (length_strip_le _) (by simp)

theorem val_mulFrom (left right : Bits) (i : Nat) (acc : Bits) :
    val (mulFrom left right i acc) = val acc + 2 ^ i * val left * val right := by
  induction right generalizing i acc with
  | nil => simp [mulFrom]
  | cons b right ih =>
    rw [mulFrom, ih, val_cons, Nat.pow_succ]
    cases b <;> simp [val_add] <;> ring

theorem mulFrom_of_val_zero (left right : Bits) (i : Nat) (acc : Bits) (h : val right = 0) :
    mulFrom left right i acc = acc := by
  induction right generalizing i acc with
  | nil => rfl
  | cons b right ih => cases b <;> simp_all [mulFrom]

theorem bitlen_mono {v w : Nat} (h : v ≤ w) : bitlen v ≤ bitlen w :=
  (bitlen_le_iff _ _).2 (lt_of_le_of_lt h (lt_two_pow_bitlen w))

theorem bitlen_bit (b : Bool) {m : Nat} (h : m ≠ 0) : bitlen (b.toNat + 2 * m) = bitlen m + 1 := by
  have h1 := lt_two_pow_bitlen m
  have hpos : 0 < bitlen m := by
    by_contra hc
    have := (bitlen_le_iff m 0).1 (by omega)
    omega
  have h2 := two_pow_le_of_lt_bitlen (v := m) (l := bitlen m - 1) (by omega)
  have h3 : 2 ^ bitlen m = 2 ^ (bitlen m - 1) * 2 := by rw [← Nat.pow_succ]; congr 1; omega
  have := b.toNat_lt
  exact bitlen_eq (by omega) (by rw [Nat.pow_succ]; omega)

/-- The length of the accumulated product when the right operand has a set bit (43_mul.md R132). -/
theorem length_mulFrom (left right : Bits) (i : Nat) (acc : Bits) (h : val right ≠ 0) :
    (mulFrom left right i acc).length =
      max (max acc.length (left.length + i + (bitlen (val right) - 1)))
        (bitlen (val acc + 2 ^ i * val left * val right)) := by
  induction right generalizing i acc with
  | nil => simp at h
  | cons b right ih =>
    rw [mulFrom]
    by_cases h0 : val right = 0
    · rw [mulFrom_of_val_zero _ _ _ _ h0]
      cases b
      · simp [h0] at h
      · simp [length_add, h0, show bitlen 1 = 1 from rfl, max_assoc]
    · have hl := bitlen_bit b h0
      have hpos : 0 < bitlen (val right) := by
        by_contra hc
        have := (bitlen_le_iff (val right) 0).1 (by omega)
        omega
      rw [ih _ _ h0, val_cons, hl]
      cases b
      · have e : val acc + 2 ^ (i + 1) * val left * val right = val acc + 2 ^ i * val left * (false.toNat + 2 * val right) := by
          simp [Nat.pow_succ]; ring
        simp only [Bool.false_eq_true, if_false]
        rw [e]
        congr 2
        omega
      · have e : val (add acc (lsl left i)) + 2 ^ (i + 1) * val left * val right =
            val acc + 2 ^ i * val left * (true.toNat + 2 * val right) := by
          simp [val_add, Nat.pow_succ]; ring
        have hm : bitlen (val acc + val (lsl left i)) ≤ bitlen (val acc + 2 ^ i * val left * (true.toNat + 2 * val right)) := by
          apply bitlen_mono
          rw [← e, val_add]
          omega
        simp only [if_true]
        rw [e, length_add, length_lsl]
        omega

theorem val_mul (a b : Bits) : val (mul a b) = val a * val b := by
  unfold mul
  split <;> simp [val_mulFrom, Nat.mul_comm]

theorem ge_iff (x y : Bits) : ge x y = true ↔ val y ≤ val x := by simp [ge]

theorem divFrom_append (b hs ks : Bits) (d : DivState) : divFrom b (hs ++ ks) d = divFrom b ks (divFrom b hs d) := by
  induction hs generalizing d with
  | nil => rfl
  | cons a hs ih => simp [divFrom, ih]

/-- Before the strip the quotient has one bit per dividend bit (44_div.md R141). -/
theorem length_quo_divFrom (b hs : Bits) (d : DivState) : (divFrom b hs d).quo.length = d.quo.length + hs.length := by
  induction hs generalizing d with
  | nil => rfl
  | cons a hs ih =>
    rw [divFrom, ih, divStep]
    split <;> simp <;> omega

theorem length_div_le (a b : Bits) : (div a b).1.length ≤ a.length := by
  refine le_trans (length_strip_le _) ?_
  rw [length_quo_divFrom]
  simp

/-- One iteration of the divider for a canonical divisor, by the dividend bit it takes in: the remainder stays below the
divisor and the subtractor raises no diagnostic (44_div.md R142, R143). -/
theorem divStep_canonical {b : Bits} (hb : isCanonical b = true) (d : DivState) (ai : Bool) (hr : val d.rem < val b) :
    val (divStep b d ai).quo * val b + val (divStep b d ai).rem
        = 2 * (val d.quo * val b + val d.rem) + ai.toNat ∧
      val (divStep b d ai).rem < val b ∧ (divStep b d ai).diag = d.diag := by
  have hai := ai.toNat_lt
  unfold divStep
  by_cases h : val b ≤ val (ai :: d.rem)
  · rw [if_pos ((ge_iff _ _).2 h)]
    have hl : b.length ≤ (ai :: d.rem).length := by
      rw [(isCanonical_iff b).1 hb]
      exact le_trans (bitlen_mono h) (bitlen_val_le _)
    have hlt := val_lt_two_pow (ai :: d.rem)
    have hmod : (val (ai :: d.rem) + 2 ^ (ai :: d.rem).length - val b) % 2 ^ (ai :: d.rem).length
        = val (ai :: d.rem) - val b := by
      rw [show val (ai :: d.rem) + 2 ^ (ai :: d.rem).length - val b
        = (val (ai :: d.rem) - val b) + 2 ^ (ai :: d.rem).length by omega, Nat.add_mod_right,
        Nat.mod_eq_of_lt (by omega)]
    rw [sub_supported hl, hmod]
    simp only [val_canon, val_cons, Bool.toNat_true, Bool.or_false] at h ⊢
    refine ⟨?_, by omega, trivial⟩
    rw [show (1 + 2 * val d.quo) * val b = val b + 2 * (val d.quo * val b) by ring]
    omega
  · rw [if_neg (by rw [ge_iff]; exact h)]
    simp only [val_cons, Bool.toNat_false] at h ⊢
    refine ⟨?_, by omega, trivial⟩
    rw [show (0 + 2 * val d.quo) * val b = 2 * (val d.quo * val b) by ring]
    omega

/-- The iterations of the divider for a canonical divisor (44_div.md R143). -/
theorem divFrom_canonical {b : Bits} (hb : isCanonical b = true) (hs : Bits) (d : DivState) (hr : val d.rem < val b) :
    val (divFrom b hs d).quo * val b + val (divFrom b hs d).rem
        = 2 ^ hs.length * (val d.quo * val b + val d.rem) + val hs.reverse ∧
      val (divFrom b hs d).rem < val b ∧ (divFrom b hs d).diag = d.diag := by
  induction hs generalizing d with
  | nil => simp [divFrom, hr]
  | cons ai hs ih =>
    obtain ⟨h1, h2, h3⟩ := divStep_canonical hb d ai hr
    obtain ⟨g1, g2, g3⟩ := ih (divStep b d ai) h2
    refine ⟨?_, g2, by rw [divFrom, g3, h3]⟩
    rw [divFrom, g1, h1, List.reverse_cons, val_append, List.length_cons, List.length_reverse, Nat.pow_succ]
    simp only [val_cons, val_nil]
    ring

end Sys2Proof.Machine
end

