-- ==== Sys2Proof/Laws/State.lean ====
section
/-! SUPPORT. What each update of the state leaves in each field, one lemma per field per update; what each register reads
after each update; and the laws of the register file. -/

namespace Sys2Proof.Machine

variable (s : State)

@[simp] theorem State.setReg_regs (r : Reg) (v : Bits) : (s.setReg r v).regs = s.regs.set r v := rfl
@[simp] theorem State.setReg_sign (r : Reg) (v : Bits) : (s.setReg r v).sign = s.sign := rfl
@[simp] theorem State.setReg_fault (r : Reg) (v : Bits) : (s.setReg r v).fault = s.fault := rfl
@[simp] theorem State.setReg_diag (r : Reg) (v : Bits) : (s.setReg r v).diag = s.diag := rfl
@[simp] theorem State.setReg_ge (r : Reg) (v : Bits) : (s.setReg r v).ge = s.ge := rfl
@[simp] theorem State.setReg_bit (r : Reg) (v : Bits) : (s.setReg r v).bit = s.bit := rfl
@[simp] theorem State.setReg_cause (r : Reg) (v : Bits) : (s.setReg r v).cause = s.cause := rfl
@[simp] theorem State.setReg_finfo (r : Reg) (v : Bits) : (s.setReg r v).finfo = s.finfo := rfl
@[simp] theorem State.setReg_lenr (r : Reg) (v : Bits) : (s.setReg r v).lenr = s.lenr := rfl
@[simp] theorem State.setReg_txtlen (r : Reg) (v : Bits) : (s.setReg r v).txtlen = s.txtlen := rfl
@[simp] theorem State.setReg_txt (r : Reg) (v : Bits) : (s.setReg r v).txt = s.txt := rfl
@[simp] theorem State.setReg_hostQueue (r : Reg) (v : Bits) : (s.setReg r v).hostQueue = s.hostQueue := rfl
@[simp] theorem State.setReg_hostAnswers (r : Reg) (v : Bits) : (s.setReg r v).hostAnswers = s.hostAnswers := rfl

@[simp] theorem State.orDiag_regs (d : Bool) : (s.orDiag d).regs = s.regs := rfl
@[simp] theorem State.orDiag_sign (d : Bool) : (s.orDiag d).sign = s.sign := rfl
@[simp] theorem State.orDiag_fault (d : Bool) : (s.orDiag d).fault = s.fault := rfl
@[simp] theorem State.orDiag_diag (d : Bool) : (s.orDiag d).diag = (s.diag || d) := rfl
@[simp] theorem State.orDiag_ge (d : Bool) : (s.orDiag d).ge = s.ge := rfl
@[simp] theorem State.orDiag_bit (d : Bool) : (s.orDiag d).bit = s.bit := rfl
@[simp] theorem State.orDiag_cause (d : Bool) : (s.orDiag d).cause = s.cause := rfl
@[simp] theorem State.orDiag_finfo (d : Bool) : (s.orDiag d).finfo = s.finfo := rfl
@[simp] theorem State.orDiag_lenr (d : Bool) : (s.orDiag d).lenr = s.lenr := rfl
@[simp] theorem State.orDiag_txtlen (d : Bool) : (s.orDiag d).txtlen = s.txtlen := rfl
@[simp] theorem State.orDiag_txt (d : Bool) : (s.orDiag d).txt = s.txt := rfl
@[simp] theorem State.orDiag_hostQueue (d : Bool) : (s.orDiag d).hostQueue = s.hostQueue := rfl
@[simp] theorem State.orDiag_hostAnswers (d : Bool) : (s.orDiag d).hostAnswers = s.hostAnswers := rfl

@[simp] theorem State.clearDiag_regs : (s.clearDiag).regs = s.regs := rfl
@[simp] theorem State.clearDiag_sign : (s.clearDiag).sign = s.sign := rfl
@[simp] theorem State.clearDiag_fault : (s.clearDiag).fault = s.fault := rfl
@[simp] theorem State.clearDiag_diag : (s.clearDiag).diag = false := rfl
@[simp] theorem State.clearDiag_ge : (s.clearDiag).ge = s.ge := rfl
@[simp] theorem State.clearDiag_bit : (s.clearDiag).bit = s.bit := rfl
@[simp] theorem State.clearDiag_cause : (s.clearDiag).cause = s.cause := rfl
@[simp] theorem State.clearDiag_finfo : (s.clearDiag).finfo = s.finfo := rfl
@[simp] theorem State.clearDiag_lenr : (s.clearDiag).lenr = s.lenr := rfl
@[simp] theorem State.clearDiag_txtlen : (s.clearDiag).txtlen = s.txtlen := rfl
@[simp] theorem State.clearDiag_txt : (s.clearDiag).txt = s.txt := rfl
@[simp] theorem State.clearDiag_hostQueue : (s.clearDiag).hostQueue = s.hostQueue := rfl
@[simp] theorem State.clearDiag_hostAnswers : (s.clearDiag).hostAnswers = s.hostAnswers := rfl

@[simp] theorem State.setGe_regs (b : Bool) : (s.setGe b).regs = s.regs := rfl
@[simp] theorem State.setGe_sign (b : Bool) : (s.setGe b).sign = s.sign := rfl
@[simp] theorem State.setGe_fault (b : Bool) : (s.setGe b).fault = s.fault := rfl
@[simp] theorem State.setGe_diag (b : Bool) : (s.setGe b).diag = s.diag := rfl
@[simp] theorem State.setGe_ge (b : Bool) : (s.setGe b).ge = b := rfl
@[simp] theorem State.setGe_bit (b : Bool) : (s.setGe b).bit = s.bit := rfl
@[simp] theorem State.setGe_cause (b : Bool) : (s.setGe b).cause = s.cause := rfl
@[simp] theorem State.setGe_finfo (b : Bool) : (s.setGe b).finfo = s.finfo := rfl
@[simp] theorem State.setGe_lenr (b : Bool) : (s.setGe b).lenr = s.lenr := rfl
@[simp] theorem State.setGe_txtlen (b : Bool) : (s.setGe b).txtlen = s.txtlen := rfl
@[simp] theorem State.setGe_txt (b : Bool) : (s.setGe b).txt = s.txt := rfl
@[simp] theorem State.setGe_hostQueue (b : Bool) : (s.setGe b).hostQueue = s.hostQueue := rfl
@[simp] theorem State.setGe_hostAnswers (b : Bool) : (s.setGe b).hostAnswers = s.hostAnswers := rfl

@[simp] theorem State.setBit_regs (b : Bool) : (s.setBit b).regs = s.regs := rfl
@[simp] theorem State.setBit_sign (b : Bool) : (s.setBit b).sign = s.sign := rfl
@[simp] theorem State.setBit_fault (b : Bool) : (s.setBit b).fault = s.fault := rfl
@[simp] theorem State.setBit_diag (b : Bool) : (s.setBit b).diag = s.diag := rfl
@[simp] theorem State.setBit_ge (b : Bool) : (s.setBit b).ge = s.ge := rfl
@[simp] theorem State.setBit_bit (b : Bool) : (s.setBit b).bit = b := rfl
@[simp] theorem State.setBit_cause (b : Bool) : (s.setBit b).cause = s.cause := rfl
@[simp] theorem State.setBit_finfo (b : Bool) : (s.setBit b).finfo = s.finfo := rfl
@[simp] theorem State.setBit_lenr (b : Bool) : (s.setBit b).lenr = s.lenr := rfl
@[simp] theorem State.setBit_txtlen (b : Bool) : (s.setBit b).txtlen = s.txtlen := rfl
@[simp] theorem State.setBit_txt (b : Bool) : (s.setBit b).txt = s.txt := rfl
@[simp] theorem State.setBit_hostQueue (b : Bool) : (s.setBit b).hostQueue = s.hostQueue := rfl
@[simp] theorem State.setBit_hostAnswers (b : Bool) : (s.setBit b).hostAnswers = s.hostAnswers := rfl

@[simp] theorem State.memWrite_regs (a : TxtAddr) (v : Byte) : (s.memWrite a v).regs = s.regs := rfl
@[simp] theorem State.memWrite_sign (a : TxtAddr) (v : Byte) : (s.memWrite a v).sign = s.sign := rfl
@[simp] theorem State.memWrite_fault (a : TxtAddr) (v : Byte) : (s.memWrite a v).fault = s.fault := rfl
@[simp] theorem State.memWrite_diag (a : TxtAddr) (v : Byte) : (s.memWrite a v).diag = s.diag := rfl
@[simp] theorem State.memWrite_ge (a : TxtAddr) (v : Byte) : (s.memWrite a v).ge = s.ge := rfl
@[simp] theorem State.memWrite_bit (a : TxtAddr) (v : Byte) : (s.memWrite a v).bit = s.bit := rfl
@[simp] theorem State.memWrite_cause (a : TxtAddr) (v : Byte) : (s.memWrite a v).cause = s.cause := rfl
@[simp] theorem State.memWrite_finfo (a : TxtAddr) (v : Byte) : (s.memWrite a v).finfo = s.finfo := rfl
@[simp] theorem State.memWrite_lenr (a : TxtAddr) (v : Byte) : (s.memWrite a v).lenr = s.lenr := rfl
@[simp] theorem State.memWrite_txtlen (a : TxtAddr) (v : Byte) : (s.memWrite a v).txtlen = s.txtlen := rfl
@[simp] theorem State.memWrite_txt (a : TxtAddr) (v : Byte) : (s.memWrite a v).txt = Memory.write s.txt a v := rfl
@[simp] theorem State.memWrite_hostQueue (a : TxtAddr) (v : Byte) : (s.memWrite a v).hostQueue = s.hostQueue := rfl
@[simp] theorem State.memWrite_hostAnswers (a : TxtAddr) (v : Byte) : (s.memWrite a v).hostAnswers = s.hostAnswers := rfl

@[simp] theorem State.setTxt_regs (m : List Host.Cell) : (s.setTxt m).regs = s.regs := rfl
@[simp] theorem State.setTxt_sign (m : List Host.Cell) : (s.setTxt m).sign = s.sign := rfl
@[simp] theorem State.setTxt_fault (m : List Host.Cell) : (s.setTxt m).fault = s.fault := rfl
@[simp] theorem State.setTxt_diag (m : List Host.Cell) : (s.setTxt m).diag = s.diag := rfl
@[simp] theorem State.setTxt_ge (m : List Host.Cell) : (s.setTxt m).ge = s.ge := rfl
@[simp] theorem State.setTxt_bit (m : List Host.Cell) : (s.setTxt m).bit = s.bit := rfl
@[simp] theorem State.setTxt_cause (m : List Host.Cell) : (s.setTxt m).cause = s.cause := rfl
@[simp] theorem State.setTxt_finfo (m : List Host.Cell) : (s.setTxt m).finfo = s.finfo := rfl
@[simp] theorem State.setTxt_lenr (m : List Host.Cell) : (s.setTxt m).lenr = s.lenr := rfl
@[simp] theorem State.setTxt_txtlen (m : List Host.Cell) : (s.setTxt m).txtlen = s.txtlen := rfl
@[simp] theorem State.setTxt_txt (m : List Host.Cell) : (s.setTxt m).txt = m := rfl
@[simp] theorem State.setTxt_hostQueue (m : List Host.Cell) : (s.setTxt m).hostQueue = s.hostQueue := rfl
@[simp] theorem State.setTxt_hostAnswers (m : List Host.Cell) : (s.setTxt m).hostAnswers = s.hostAnswers := rfl

@[simp] theorem State.setLenr_regs (v : Word) : (s.setLenr v).regs = s.regs := rfl
@[simp] theorem State.setLenr_sign (v : Word) : (s.setLenr v).sign = s.sign := rfl
@[simp] theorem State.setLenr_fault (v : Word) : (s.setLenr v).fault = s.fault := rfl
@[simp] theorem State.setLenr_diag (v : Word) : (s.setLenr v).diag = s.diag := rfl
@[simp] theorem State.setLenr_ge (v : Word) : (s.setLenr v).ge = s.ge := rfl
@[simp] theorem State.setLenr_bit (v : Word) : (s.setLenr v).bit = s.bit := rfl
@[simp] theorem State.setLenr_cause (v : Word) : (s.setLenr v).cause = s.cause := rfl
@[simp] theorem State.setLenr_finfo (v : Word) : (s.setLenr v).finfo = s.finfo := rfl
@[simp] theorem State.setLenr_lenr (v : Word) : (s.setLenr v).lenr = v := rfl
@[simp] theorem State.setLenr_txtlen (v : Word) : (s.setLenr v).txtlen = s.txtlen := rfl
@[simp] theorem State.setLenr_txt (v : Word) : (s.setLenr v).txt = s.txt := rfl
@[simp] theorem State.setLenr_hostQueue (v : Word) : (s.setLenr v).hostQueue = s.hostQueue := rfl
@[simp] theorem State.setLenr_hostAnswers (v : Word) : (s.setLenr v).hostAnswers = s.hostAnswers := rfl

@[simp] theorem State.setTxtlen_regs (v : Word) : (s.setTxtlen v).regs = s.regs := rfl
@[simp] theorem State.setTxtlen_sign (v : Word) : (s.setTxtlen v).sign = s.sign := rfl
@[simp] theorem State.setTxtlen_fault (v : Word) : (s.setTxtlen v).fault = s.fault := rfl
@[simp] theorem State.setTxtlen_diag (v : Word) : (s.setTxtlen v).diag = s.diag := rfl
@[simp] theorem State.setTxtlen_ge (v : Word) : (s.setTxtlen v).ge = s.ge := rfl
@[simp] theorem State.setTxtlen_bit (v : Word) : (s.setTxtlen v).bit = s.bit := rfl
@[simp] theorem State.setTxtlen_cause (v : Word) : (s.setTxtlen v).cause = s.cause := rfl
@[simp] theorem State.setTxtlen_finfo (v : Word) : (s.setTxtlen v).finfo = s.finfo := rfl
@[simp] theorem State.setTxtlen_lenr (v : Word) : (s.setTxtlen v).lenr = s.lenr := rfl
@[simp] theorem State.setTxtlen_txtlen (v : Word) : (s.setTxtlen v).txtlen = v := rfl
@[simp] theorem State.setTxtlen_txt (v : Word) : (s.setTxtlen v).txt = s.txt := rfl
@[simp] theorem State.setTxtlen_hostQueue (v : Word) : (s.setTxtlen v).hostQueue = s.hostQueue := rfl
@[simp] theorem State.setTxtlen_hostAnswers (v : Word) : (s.setTxtlen v).hostAnswers = s.hostAnswers := rfl

@[simp] theorem State.raise_regs (c : Cause) (v : Word) : (s.raise c v).regs = s.regs := rfl
@[simp] theorem State.raise_sign (c : Cause) (v : Word) : (s.raise c v).sign = s.sign := rfl
@[simp] theorem State.raise_fault (c : Cause) (v : Word) : (s.raise c v).fault = true := rfl
@[simp] theorem State.raise_diag (c : Cause) (v : Word) : (s.raise c v).diag = s.diag := rfl
@[simp] theorem State.raise_ge (c : Cause) (v : Word) : (s.raise c v).ge = s.ge := rfl
@[simp] theorem State.raise_bit (c : Cause) (v : Word) : (s.raise c v).bit = s.bit := rfl
@[simp] theorem State.raise_cause (c : Cause) (v : Word) : (s.raise c v).cause = c := rfl
@[simp] theorem State.raise_finfo (c : Cause) (v : Word) : (s.raise c v).finfo = v := rfl
@[simp] theorem State.raise_lenr (c : Cause) (v : Word) : (s.raise c v).lenr = s.lenr := rfl
@[simp] theorem State.raise_txtlen (c : Cause) (v : Word) : (s.raise c v).txtlen = s.txtlen := rfl
@[simp] theorem State.raise_txt (c : Cause) (v : Word) : (s.raise c v).txt = s.txt := rfl
@[simp] theorem State.raise_hostQueue (c : Cause) (v : Word) : (s.raise c v).hostQueue = s.hostQueue := rfl
@[simp] theorem State.raise_hostAnswers (c : Cause) (v : Word) : (s.raise c v).hostAnswers = s.hostAnswers := rfl

@[simp] theorem State.answer_regs (v : HostAnswer) : (s.answer v).regs = s.regs := rfl
@[simp] theorem State.answer_sign (v : HostAnswer) : (s.answer v).sign = s.sign := rfl
@[simp] theorem State.answer_fault (v : HostAnswer) : (s.answer v).fault = s.fault := rfl
@[simp] theorem State.answer_diag (v : HostAnswer) : (s.answer v).diag = s.diag := rfl
@[simp] theorem State.answer_ge (v : HostAnswer) : (s.answer v).ge = s.ge := rfl
@[simp] theorem State.answer_bit (v : HostAnswer) : (s.answer v).bit = s.bit := rfl
@[simp] theorem State.answer_cause (v : HostAnswer) : (s.answer v).cause = s.cause := rfl
@[simp] theorem State.answer_finfo (v : HostAnswer) : (s.answer v).finfo = s.finfo := rfl
@[simp] theorem State.answer_lenr (v : HostAnswer) : (s.answer v).lenr = s.lenr := rfl
@[simp] theorem State.answer_txtlen (v : HostAnswer) : (s.answer v).txtlen = s.txtlen := rfl
@[simp] theorem State.answer_txt (v : HostAnswer) : (s.answer v).txt = s.txt := rfl
@[simp] theorem State.answer_hostQueue (v : HostAnswer) : (s.answer v).hostQueue = s.hostQueue := rfl
@[simp] theorem State.answer_hostAnswers (v : HostAnswer) : (s.answer v).hostAnswers = v :: s.hostAnswers := rfl

@[simp] theorem State.setQueue_regs (q : List HostTx) : (s.setQueue q).regs = s.regs := rfl
@[simp] theorem State.setQueue_sign (q : List HostTx) : (s.setQueue q).sign = s.sign := rfl
@[simp] theorem State.setQueue_fault (q : List HostTx) : (s.setQueue q).fault = s.fault := rfl
@[simp] theorem State.setQueue_diag (q : List HostTx) : (s.setQueue q).diag = s.diag := rfl
@[simp] theorem State.setQueue_ge (q : List HostTx) : (s.setQueue q).ge = s.ge := rfl
@[simp] theorem State.setQueue_bit (q : List HostTx) : (s.setQueue q).bit = s.bit := rfl
@[simp] theorem State.setQueue_cause (q : List HostTx) : (s.setQueue q).cause = s.cause := rfl
@[simp] theorem State.setQueue_finfo (q : List HostTx) : (s.setQueue q).finfo = s.finfo := rfl
@[simp] theorem State.setQueue_lenr (q : List HostTx) : (s.setQueue q).lenr = s.lenr := rfl
@[simp] theorem State.setQueue_txtlen (q : List HostTx) : (s.setQueue q).txtlen = s.txtlen := rfl
@[simp] theorem State.setQueue_txt (q : List HostTx) : (s.setQueue q).txt = s.txt := rfl
@[simp] theorem State.setQueue_hostQueue (q : List HostTx) : (s.setQueue q).hostQueue = q := rfl
@[simp] theorem State.setQueue_hostAnswers (q : List HostTx) : (s.setQueue q).hostAnswers = s.hostAnswers := rfl

@[simp] theorem State.hostReset_regs : s.hostReset.regs = State.reset.regs := rfl
@[simp] theorem State.hostReset_sign : s.hostReset.sign = 0#8 := rfl
@[simp] theorem State.hostReset_fault : s.hostReset.fault = false := rfl
@[simp] theorem State.hostReset_diag : s.hostReset.diag = false := rfl
@[simp] theorem State.hostReset_ge : s.hostReset.ge = false := rfl
@[simp] theorem State.hostReset_bit : s.hostReset.bit = false := rfl
@[simp] theorem State.hostReset_cause : s.hostReset.cause = .noFault := rfl
@[simp] theorem State.hostReset_finfo : s.hostReset.finfo = 0#32 := rfl
@[simp] theorem State.hostReset_lenr : s.hostReset.lenr = 0#32 := rfl
@[simp] theorem State.hostReset_txtlen : s.hostReset.txtlen = 0#32 := rfl
@[simp] theorem State.hostReset_txt : s.hostReset.txt = s.txt := rfl
@[simp] theorem State.hostReset_hostQueue : s.hostReset.hostQueue = s.hostQueue := rfl
@[simp] theorem State.hostReset_hostAnswers : s.hostReset.hostAnswers = s.hostAnswers := rfl

theorem RegFile.get_set (f : RegFile) (r q : Reg) (v : Bits) : (f.set r v).get q = if q = r then v else f.get q := by
  cases r <;> cases q <;> rfl

@[simp] theorem RegFile.get_set_self (f : RegFile) (r : Reg) (v : Bits) : (f.set r v).get r = v := by
  simp [RegFile.get_set]

theorem RegFile.get_set_of_ne (f : RegFile) {r q : Reg} (h : q ≠ r) (v : Bits) : (f.set r v).get q = f.get q := by
  simp [RegFile.get_set, h]

theorem RegFile.ext_get {f g : RegFile} (h : ∀ r, f.get r = g.get r) : f = g := by
  obtain ⟨h0, h1, h2, h3, h4, h5, h6, h7⟩ :=
    (⟨h .r0, h .r1, h .r2, h .r3, h .r4, h .r5, h .r6, h .r7⟩ : _ ∧ _ ∧ _ ∧ _ ∧ _ ∧ _ ∧ _ ∧ _)
  cases f; cases g
  simp_all [RegFile.get]

@[simp] theorem State.reset_reg (r : Reg) : State.reset.reg r = [] := by cases r <;> rfl

@[simp] theorem State.hostReset_reg (r : Reg) : s.hostReset.reg r = [] := by cases r <;> rfl

theorem State.setReg_reg (r q : Reg) (v : Bits) : (s.setReg r v).reg q = if q = r then v else s.reg q :=
  RegFile.get_set s.regs r q v

@[simp] theorem State.setReg_reg_self (r : Reg) (v : Bits) : (s.setReg r v).reg r = v := RegFile.get_set_self s.regs r v

theorem State.setReg_reg_of_ne {r q : Reg} (h : q ≠ r) (v : Bits) : (s.setReg r v).reg q = s.reg q :=
  RegFile.get_set_of_ne s.regs h v

@[simp] theorem State.orDiag_reg (d : Bool) (n : Reg) : (s.orDiag d).reg n = s.reg n := rfl
@[simp] theorem State.clearDiag_reg (n : Reg) : (s.clearDiag).reg n = s.reg n := rfl
@[simp] theorem State.setGe_reg (b : Bool) (n : Reg) : (s.setGe b).reg n = s.reg n := rfl
@[simp] theorem State.setBit_reg (b : Bool) (n : Reg) : (s.setBit b).reg n = s.reg n := rfl
@[simp] theorem State.memWrite_reg (a : TxtAddr) (v : Byte) (n : Reg) : (s.memWrite a v).reg n = s.reg n := rfl
@[simp] theorem State.setTxt_reg (m : List Host.Cell) (n : Reg) : (s.setTxt m).reg n = s.reg n := rfl
@[simp] theorem State.setLenr_reg (v : Word) (n : Reg) : (s.setLenr v).reg n = s.reg n := rfl
@[simp] theorem State.setTxtlen_reg (v : Word) (n : Reg) : (s.setTxtlen v).reg n = s.reg n := rfl
@[simp] theorem State.raise_reg (c : Cause) (v : Word) (n : Reg) : (s.raise c v).reg n = s.reg n := rfl
@[simp] theorem State.answer_reg (v : HostAnswer) (n : Reg) : (s.answer v).reg n = s.reg n := rfl
@[simp] theorem State.setQueue_reg (q : List HostTx) (n : Reg) : (s.setQueue q).reg n = s.reg n := rfl

@[simp] theorem State.setReg_memRead (r : Reg) (v : Bits) (p : TxtAddr) : (s.setReg r v).memRead p = s.memRead p := rfl
@[simp] theorem State.orDiag_memRead (d : Bool) (p : TxtAddr) : (s.orDiag d).memRead p = s.memRead p := rfl
@[simp] theorem State.clearDiag_memRead (p : TxtAddr) : (s.clearDiag).memRead p = s.memRead p := rfl
@[simp] theorem State.setGe_memRead (b : Bool) (p : TxtAddr) : (s.setGe b).memRead p = s.memRead p := rfl
@[simp] theorem State.setBit_memRead (b : Bool) (p : TxtAddr) : (s.setBit b).memRead p = s.memRead p := rfl
@[simp] theorem State.setLenr_memRead (v : Word) (p : TxtAddr) : (s.setLenr v).memRead p = s.memRead p := rfl
@[simp] theorem State.setTxtlen_memRead (v : Word) (p : TxtAddr) : (s.setTxtlen v).memRead p = s.memRead p := rfl
@[simp] theorem State.raise_memRead (c : Cause) (v : Word) (p : TxtAddr) : (s.raise c v).memRead p = s.memRead p := rfl
@[simp] theorem State.answer_memRead (v : HostAnswer) (p : TxtAddr) : (s.answer v).memRead p = s.memRead p := rfl
@[simp] theorem State.setQueue_memRead (q : List HostTx) (p : TxtAddr) : (s.setQueue q).memRead p = s.memRead p := rfl
@[simp] theorem State.setTxt_memRead (m : List Host.Cell) (p : TxtAddr) : (s.setTxt m).memRead p = Memory.read m p := rfl
@[simp] theorem State.hostReset_memRead (p : TxtAddr) : s.hostReset.memRead p = s.memRead p := rfl

end Sys2Proof.Machine
end

