-- ==== Sys2Proof/Laws/Memory.lean ====
section
/-! SUPPORT. The laws of the text memory: a read after a write, and that every write keeps the canonical form
(20_memory.md R42, R43; log entry 3). -/

namespace Sys2Proof.Machine

theorem Memory.lookup_insert (m : List Host.Cell) (a p : Nat) (v : Byte) :
    Memory.lookup (Memory.insert m a v) p = if p = a then some v else Memory.lookup m p := by
  induction m with
  | nil => simp [Memory.insert, Memory.lookup, eq_comm]
  | cons c m ih =>
    rw [Memory.insert]
    split
    · simp [Memory.lookup, eq_comm]
    · split
      · subst_vars
        simp only [Memory.lookup]
        grind
      · simp only [Memory.lookup, ih]
        grind

/-- A read after a write gives the byte written at that cell and leaves every other cell alone (20_memory.md R42, R43). -/
theorem Memory.read_write (m : List Host.Cell) (a p : TxtAddr) (v : Byte) :
    Memory.read (Memory.write m a v) p = if p = a then v else Memory.read m p := by
  unfold Memory.read Memory.write
  rw [Memory.lookup_insert]
  by_cases h : p = a
  · simp [h]
  · rw [if_neg (by rwa [BitVec.toNat_inj]), if_neg h]

@[simp] theorem State.memWrite_memRead_self (s : State) (a : TxtAddr) (v : Byte) : (s.memWrite a v).memRead a = v := by
  simp [State.memWrite, State.memRead, Memory.read_write]

theorem State.memWrite_memRead_of_ne (s : State) {a p : TxtAddr} (h : p ≠ a) (v : Byte) :
    (s.memWrite a v).memRead p = s.memRead p := by
  simp [State.memWrite, State.memRead, Memory.read_write, h]

theorem Memory.risesFrom_insert {lo a : Nat} {m : List Host.Cell} (h : Memory.risesFrom lo m = true) (hlo : lo ≤ a)
    (v : Byte) : Memory.risesFrom lo (Memory.insert m a v) = true := by
  induction m generalizing lo with
  | nil => simp [Memory.insert, Memory.risesFrom, hlo]
  | cons c m ih =>
    simp only [Memory.risesFrom, Bool.and_eq_true, decide_eq_true_eq] at h
    rw [Memory.insert]
    split
    · simp only [Memory.risesFrom, Bool.and_eq_true, decide_eq_true_eq]
      exact ⟨hlo, by omega, h.2⟩
    · split
      · simp only [Memory.risesFrom, Bool.and_eq_true, decide_eq_true_eq]
        subst_vars
        exact ⟨hlo, h.2⟩
      · simp only [Memory.risesFrom, Bool.and_eq_true, decide_eq_true_eq]
        exact ⟨h.1, ih h.2 (by omega)⟩

theorem Memory.mem_insert {m : List Host.Cell} {a : Nat} {v : Byte} {c : Host.Cell} (h : c ∈ Memory.insert m a v) :
    c = (a, v) ∨ c ∈ m := by
  induction m with
  | nil => simpa [Memory.insert] using h
  | cons d m ih =>
    rw [Memory.insert] at h
    split at h
    · simpa using h
    · split at h <;> simp only [List.mem_cons] at h ⊢ <;> grind

/-- Every write keeps the canonical form of the text memory. -/
theorem Memory.wf_write {m : List Host.Cell} (h : Memory.wf m = true) (a : TxtAddr) (v : Byte) :
    Memory.wf (Memory.write m a v) = true := by
  simp only [Memory.wf, Memory.write, Bool.and_eq_true, List.all_eq_true, decide_eq_true_eq] at h ⊢
  refine ⟨Memory.risesFrom_insert h.1 (Nat.zero_le _) v, fun c hc => ?_⟩
  rcases Memory.mem_insert hc with rfl | hc
  · exact a.isLt
  · exact h.2 c hc

end Sys2Proof.Machine
end

