-- ==== Sys2Proof/Laws/Codec.lean ====
section
/-! SUPPORT. What the scan of PARSE and the writes of TOHEX do (41_parse.md R100, R101; 46_tohex.md R160, R161). -/

namespace Sys2Proof.Machine

/-- A valid character's nibble value is 0 to 15 (41_parse.md R101). -/
theorem hexval_lt {c : Byte} {n : Nat} (h : hexval c = some n) : n < 16 := by
  unfold hexval at h
  split at h
  · simp only [Option.some.injEq] at h; omega
  · split at h
    · simp only [Option.some.injEq] at h; omega
    · split at h
      · simp only [Option.some.injEq] at h; omega
      · simp at h

@[simp] theorem length_nibbleBits (n : Nat) : (nibbleBits n).length = 4 := rfl

theorem val_nibbleBits {n : Nat} (h : n < 16) : val (nibbleBits n) = n := by
  interval_cases n <;> rfl

theorem lowGroup_lt (s : Bits) : lowGroup s < 16 := by
  unfold lowGroup
  have h0 := (bitAt s 0).toNat_lt
  have h1 := (bitAt s 1).toNat_lt
  have h2 := (bitAt s 2).toNat_lt
  have h3 := (bitAt s 3).toNat_lt
  omega

/-- The lowest group is the value modulo 16 (46_tohex.md R160). -/
theorem lowGroup_eq (s : Bits) : lowGroup s = val s % 16 := by
  rcases s with _ | ⟨a, _ | ⟨b, _ | ⟨c, _ | ⟨d, s⟩⟩⟩⟩ <;>
    simp only [lowGroup, bitAt, List.getD_cons_zero, List.getD_cons_succ, List.getD_nil, val_cons, val_nil,
      Bool.toNat_false] <;>
    (try have := a.toNat_lt) <;> (try have := b.toNat_lt) <;> (try have := c.toNat_lt) <;>
    (try have := d.toNat_lt) <;> omega

/-- Inside a window that passed its check the address of a character does not wrap (20_memory.md R57). -/
theorem toNat_charAddr {base k : Nat} (h : base + k < Config.txtsz) : (charAddr base k).toNat = base + k := by
  simp only [charAddr, BitVec.toNat_ofNat]
  exact Nat.mod_eq_of_lt h

theorem charAddr_ne {base j k : Nat} (hj : base + j < Config.txtsz) (hk : base + k < Config.txtsz) (h : j ≠ k) :
    charAddr base j ≠ charAddr base k := by
  intro e
  have := congrArg BitVec.toNat e
  rw [toNat_charAddr hj, toNat_charAddr hk] at this
  omega

/-- The nibble value of the character `k` places above `base`, 0 if it is invalid. -/
def nibbleAt (m : List Host.Cell) (base k : Nat) : Nat := (hexval (Memory.read m (charAddr base k))).getD 0

/-- The number that `k` characters at `base` spell, most-significant digit first (41_parse.md R100). -/
def spelled (m : List Host.Cell) (base : Nat) : Nat → Nat
  | 0 => 0
  | k + 1 => nibbleAt m base k + 16 * spelled m base k

/-- The number that the characters spell is the sum of the digits at their powers of 16 (41_parse.md R100). -/
theorem hexNumber_eq_spelled (s : State) (base k : Nat) : s.hexNumber base k = spelled s.txt base k := by
  induction k with
  | zero => rfl
  | succ k ih =>
    rw [spelled, ← ih, State.hexNumber, Finset.sum_range_succ', State.hexNumber, Finset.mul_sum, Nat.add_comm]
    congr 1
    · simp [State.digitAt, nibbleAt, State.memRead, charAddr]
    · refine Finset.sum_congr rfl fun j hj => ?_
      rw [show base + (k + 1) - 1 - (j + 1) = base + k - 1 - j by omega, pow_succ]
      ring

theorem nibbleAt_lt (m : List Host.Cell) (base k : Nat) : nibbleAt m base k < 16 := by
  unfold nibbleAt
  cases h : hexval (Memory.read m (charAddr base k)) with
  | none => simp
  | some n => simpa using hexval_lt h

theorem spelled_lt (m : List Host.Cell) (base k : Nat) : spelled m base k < 16 ^ k := by
  induction k with
  | zero => simp [spelled]
  | succ k ih =>
    have := nibbleAt_lt m base k
    rw [spelled, Nat.pow_succ]; omega

/-- The scan of valid characters gives four bits each, and the number they spell (41_parse.md R100). -/
theorem scanHex_valid {m : List Host.Cell} {base k : Nat}
    (h : ∀ j < k, hexval (Memory.read m (charAddr base j)) ≠ none) :
    ∃ v, scanHex m base k = .bits v ∧ v.length = 4 * k ∧ val v = spelled m base k := by
  induction k with
  | zero => exact ⟨[], rfl, rfl, rfl⟩
  | succ k ih =>
    obtain ⟨v, hv, hl, hn⟩ := ih (fun j hj => h j (by omega))
    obtain ⟨n, hx⟩ := Option.ne_none_iff_exists'.1 (h k (by omega))
    refine ⟨nibbleBits n ++ v, by simp [scanHex, hx, hv, Scan.below], by simp [hl]; omega, ?_⟩
    simp [val_append, val_nibbleBits (hexval_lt hx), hn, spelled, nibbleAt, hx]

/-- The scan ends at the invalid character of highest address (41_parse.md R100, 60_exceptions.md R177). -/
theorem scanHex_invalid {m : List Host.Cell} {base k i : Nat} (hi : i < k)
    (hbad : hexval (Memory.read m (charAddr base i)) = none)
    (hok : ∀ j, i < j → j < k → hexval (Memory.read m (charAddr base j)) ≠ none) :
    scanHex m base k = .invalid (charAddr base i) := by
  induction k with
  | zero => omega
  | succ k ih =>
    by_cases e : i = k
    · subst e
      simp [scanHex, hbad]
    · obtain ⟨n, hx⟩ := Option.ne_none_iff_exists'.1 (hok k (by omega) (by omega))
      simp [scanHex, hx, ih (by omega) (fun j h1 h2 => hok j h1 (by omega)), Scan.below]

/-- What a scan can give: the bits of an all-valid window, or the address of its last invalid character. -/
theorem scanHex_cases (m : List Host.Cell) (base k : Nat) :
    (∃ v, scanHex m base k = .bits v ∧ v.length = 4 * k ∧ val v = spelled m base k ∧
      ∀ j < k, hexval (Memory.read m (charAddr base j)) ≠ none) ∨
    (∃ i < k, scanHex m base k = .invalid (charAddr base i) ∧ hexval (Memory.read m (charAddr base i)) = none ∧
      ∀ j, i < j → j < k → hexval (Memory.read m (charAddr base j)) ≠ none) := by
  by_cases h : ∀ j < k, hexval (Memory.read m (charAddr base j)) ≠ none
  · obtain ⟨v, h1, h2, h3⟩ := scanHex_valid h
    exact .inl ⟨v, h1, h2, h3, h⟩
  · right
    induction k with
    | zero => simp at h
    | succ k ih =>
      by_cases hk : hexval (Memory.read m (charAddr base k)) = none
      · exact ⟨k, by omega, by simp [scanHex, hk], hk, fun j h1 h2 => by omega⟩
      · obtain ⟨i, hi, hs, hb, ho⟩ := ih (fun hall => h (fun j hj => by
          rcases Nat.lt_succ_iff_lt_or_eq.1 hj with h' | rfl
          · exact hall j h'
          · exact hk))
        have ho' : ∀ j, i < j → j < k + 1 → hexval (Memory.read m (charAddr base j)) ≠ none := fun j h1 h2 => by
          rcases Nat.lt_succ_iff_lt_or_eq.1 h2 with h' | rfl
          · exact ho j h1 h'
          · exact hk
        exact ⟨i, by omega, scanHex_invalid (by omega) hb ho', hb, ho'⟩

@[simp] theorem length_hexDigits (k : Nat) (s : Bits) : (hexDigits k s).length = k := by
  induction k generalizing s with
  | zero => rfl
  | succ k ih => simp [hexDigits, ih]

/-- Character j of TOHEX is that of group j, the value of bits 4j to 4j+3 (46_tohex.md R160). -/
theorem getElem?_hexDigits (k j : Nat) (s : Bits) (h : j < k) :
    (hexDigits k s)[j]? = some (hexchar (val s / 16 ^ j % 16)) := by
  induction k generalizing s j with
  | zero => omega
  | succ k ih =>
    cases j with
    | zero => simp [hexDigits, lowGroup_eq]
    | succ j =>
      rw [hexDigits, List.getElem?_cons_succ, ih j (s.drop 4) (by omega), val_drop, Nat.div_div_eq_div_mul, pow_succ' 16,
        show 2 ^ 4 = 16 from rfl]

/-- The writes of TOHEX keep the canonical form. -/
theorem Memory.wf_storeDigits {m : List Host.Cell} (h : Memory.wf m = true) (base : Nat) (cs : List Byte) :
    Memory.wf (storeDigits m base cs) = true := by
  induction cs generalizing m with
  | nil => exact h
  | cons c cs ih => exact ih (Memory.wf_write h _ _)

/-- Outside the window the writes of TOHEX leave every cell alone (46_tohex.md R160). -/
theorem read_storeDigits_outside (m : List Host.Cell) (base : Nat) (cs : List Byte) (a : TxtAddr)
    (h : ∀ j < cs.length, a ≠ charAddr base j) : Memory.read (storeDigits m base cs) a = Memory.read m a := by
  induction cs generalizing m with
  | nil => rfl
  | cons c cs ih =>
    rw [storeDigits, ih _ (fun j hj => h j (by simp; omega)), Memory.read_write, if_neg (h cs.length (by simp))]

/-- The character of group j lies at `base + k - 1 - j` (46_tohex.md R160). -/
theorem read_storeDigits (m : List Host.Cell) (base : Nat) (cs : List Byte) (hw : base + cs.length ≤ Config.txtsz)
    (j : Nat) (hj : j < cs.length) :
    some (Memory.read (storeDigits m base cs) (charAddr base (cs.length - 1 - j))) = cs[j]? := by
  induction cs generalizing m j with
  | nil => simp at hj
  | cons c cs ih =>
    simp only [List.length_cons] at hw hj
    cases j with
    | zero =>
      rw [storeDigits, read_storeDigits_outside, Memory.read_write]
      · simp
      · intro i hi
        exact charAddr_ne (by simp; omega) (by omega) (by simp; omega)
    | succ j =>
      rw [storeDigits, List.getElem?_cons_succ, ← ih _ (by omega) j (by omega)]
      congr 3
      simp
      omega

end Sys2Proof.Machine
end

