-- ==== Sys2Proof/Laws/Decode.lean ====
section
/-! SUPPORT. The laws of the decoder and encoder: registers, fields of an assembled word, and the masks of the opcode table
as must-be-zero fields (30_encoding.md R61, R62, R64). -/

namespace Sys2Proof

theorem Reg.num_lt (r : Reg) : r.num < 8 := by cases r <;> decide

@[simp] theorem Reg.ofNum_num (r : Reg) : Reg.ofNum r.num = r := by cases r <;> rfl

theorem Reg.num_ofNum {n : Nat} (h : n < 8) : (Reg.ofNum n).num = n := by interval_cases n <;> rfl

theorem slice_lt (w : Word) (hi lo : Nat) : slice w hi lo < 2 ^ (hi + 1 - lo) := Nat.mod_lt _ (Nat.two_pow_pos _)

@[simp] theorem Opcode.ofNum_num (op : Opcode) : Opcode.ofNum op.num = some op := by cases op <;> rfl

theorem Opcode.num_of_ofNum {n : Nat} {op : Opcode} (h : Opcode.ofNum n = some op) : op.num = n := by
  unfold Opcode.ofNum at h
  split at h <;> simp_all only [Option.some.injEq, reduceCtorEq] <;> subst h <;> rfl

/-- `match = op * 2^27` (30_encoding.md R64). -/
theorem Opcode.matchWord_eq (op : Opcode) : op.matchWord = BitVec.ofNat 32 (op.num * 2 ^ 27) := by cases op <;> rfl

/-- Bit i of a word, from the field that holds it. -/
theorem getLsbD_of_slice {w : Word} {hi lo v : Nat} (h : slice w hi lo = v) {i : Nat} (h1 : lo ≤ i) (h2 : i ≤ hi) :
    w.getLsbD i = v.testBit (i - lo) := by
  subst h
  rw [slice, Nat.testBit_mod_two_pow, Nat.testBit_div_two_pow, decide_eq_true (by omega : i - lo < hi + 1 - lo),
    Bool.true_and, show i - lo + lo = i by omega]
  rfl

/-- A field from its bits. -/
theorem slice_of_getLsbD {w : Word} {hi lo v : Nat} (hv : v < 2 ^ (hi + 1 - lo))
    (h : ∀ i, lo ≤ i → i ≤ hi → w.getLsbD i = v.testBit (i - lo)) : slice w hi lo = v := by
  apply Nat.eq_of_testBit_eq
  intro j
  rw [slice, Nat.testBit_mod_two_pow, Nat.testBit_div_two_pow]
  by_cases hj : j < hi + 1 - lo
  · have := h (j + lo) (by omega) (by omega)
    rw [show j + lo - lo = j by omega] at this
    simp only [hj, decide_true, Bool.true_and]
    exact this
  · rw [Nat.testBit_lt_two_pow (lt_of_lt_of_le hv (Nat.pow_le_pow_right (by simp) (by omega)))]
    simp [hj]

/-- A mask and a match word check exactly the fields `(hi, lo, value)` of a list. -/
def checksFields (mask c : Word) (fields : List (Nat × Nat × Nat)) : Bool :=
  (List.range 32).all (fun i =>
    (mask.getLsbD i == fields.any (fun p => decide (p.2.1 ≤ i ∧ i ≤ p.1))) && (mask.getLsbD i || !c.getLsbD i) &&
      fields.all (fun p => !decide (p.2.1 ≤ i ∧ i ≤ p.1) || c.getLsbD i == p.2.2.testBit (i - p.2.1))) &&
  fields.all (fun p => decide (p.1 < 32 ∧ p.2.2 < 2 ^ (p.1 + 1 - p.2.1)))

theorem and_mask_iff {mask c : Word} {fields : List (Nat × Nat × Nat)} (h : checksFields mask c fields = true) (w : Word) :
    w &&& mask = c ↔ ∀ p ∈ fields, slice w p.1 p.2.1 = p.2.2 := by
  simp only [checksFields, Bool.and_eq_true, List.all_eq_true, List.mem_range, decide_eq_true_eq, beq_iff_eq,
    Bool.or_eq_true, Bool.not_eq_true', decide_eq_false_iff_not] at h
  obtain ⟨hb, hf⟩ := h
  constructor
  · rintro rfl p hp
    refine slice_of_getLsbD (hf p hp).2 fun i h1 h2 => ?_
    obtain ⟨⟨hm, _⟩, hc⟩ := hb i (by have := (hf p hp).1; omega)
    have hmi : mask.getLsbD i = true := by
      rw [hm, List.any_eq_true]
      exact ⟨p, hp, by simp [h1, h2]⟩
    rcases hc p hp with hc | hc
    · exact absurd ⟨h1, h2⟩ hc
    · simpa [hmi] using hc
  · intro hs
    apply BitVec.eq_of_getLsbD_eq
    intro i hi
    obtain ⟨⟨hm, hz⟩, hc⟩ := hb i hi
    rw [BitVec.getLsbD_and]
    cases hmi : mask.getLsbD i with
    | false =>
      rcases hz with hz | hz
      · rw [hmi] at hz; cases hz
      · rw [hz, Bool.and_false]
    | true =>
      rw [hmi, eq_comm, List.any_eq_true] at hm
      obtain ⟨p, hp, hr⟩ := hm
      simp only [decide_eq_true_eq] at hr
      rcases hc p hp with hc | hc
      · exact absurd hr hc
      · rw [hc, getLsbD_of_slice (hs p hp) hr.1 hr.2, Bool.and_true]

/-- The match and the mask of a row check its opcode and its must-be-zero bits, and nothing else (30_encoding.md R62, R64). -/
theorem Opcode.and_mask_iff (op : Opcode) (w : Word) :
    w &&& op.mask = op.matchWord ↔ opField w = op.num ∧ op.MbzClear w := by
  have h : checksFields op.mask op.matchWord ((31, 27, op.num) :: op.mustBeZero.map (fun p => (p.1, p.2, 0))) = true := by
    cases op <;> decide
  rw [Sys2Proof.and_mask_iff h]
  constructor
  · exact fun hs => ⟨hs _ (List.mem_cons_self ..), fun p hp => hs (p.1, p.2, 0) (List.mem_cons_of_mem _ (List.mem_map_of_mem hp))⟩
  · rintro ⟨ho, hz⟩ q hq
    rcases List.mem_cons.1 hq with rfl | hq
    · exact ho
    · obtain ⟨p, hp, rfl⟩ := List.mem_map.1 hq
      exact hz p hp

/-- The row of a word, if it has one. -/
theorem decode_command_iff (w : Word) (i : Instr) :
    decode w = .command i ↔ ∃ op, Opcode.ofNum (opField w) = some op ∧ w &&& op.mask = op.matchWord ∧ op.instr w = i := by
  unfold decode
  split
  · simp_all
  · rename_i op h
    split
    · simp_all
    · simp_all

theorem Opcode.instr_opcode (w : Word) (op : Opcode) : (op.instr w).opcode = op := by cases op <;> rfl

/-- An assembled word whose fields fit is the sum itself: nothing is cut off. -/
theorem toNat_assemble {op a b c low : Nat} (h : op < 32) (ha : a < 8) (hb : b < 8) (hc : c < 8) (hl : low < 2 ^ 18) :
    (assemble op a b c low).toNat = op * 2 ^ 27 + a * 2 ^ 24 + b * 2 ^ 21 + c * 2 ^ 18 + low := by
  simp only [assemble, BitVec.toNat_ofNat]
  omega

/-- The same for the text commands, whose `base` and `len` take the bits of `ra` and `rb` as well (30_encoding.md R62). -/
theorem toNat_assemble_text {op a low : Nat} (h : op < 32) (ha : a < 8) (hl : low < 2 ^ 24) :
    (assemble op a 0 0 low).toNat = op * 2 ^ 27 + a * 2 ^ 24 + low := by
  simp only [assemble, BitVec.toNat_ofNat]
  omega

/-- Field `b` is the lowest bit of the word (30_encoding.md R61). -/
theorem toNat_bField (w : Word) : (bField w).toNat = w.toNat % 2 := by
  have h : slice w 0 0 = w.toNat % 2 := by simp [slice]
  rw [bField, h]
  rcases Nat.mod_two_eq_zero_or_one w.toNat with e | e <;> simp [e]

theorem slice_zero_eq (w : Word) : slice w 0 0 = slice w 15 0 % 2 := by
  simp only [slice]
  omega

/-- The fields of an assembled word are the ones it was assembled from (30_encoding.md R61). -/
theorem fields_assemble {op a b c low : Nat} (h : op < 32) (ha : a < 8) (hb : b < 8) (hc : c < 8) (hl : low < 2 ^ 16) :
    opField (assemble op a b c low) = op ∧ slice (assemble op a b c low) 26 24 = a ∧
      slice (assemble op a b c low) 23 21 = b ∧ slice (assemble op a b c low) 20 18 = c ∧
      slice (assemble op a b c low) 15 0 = low := by
  simp only [opField, slice, toNat_assemble h ha hb hc (lt_of_lt_of_le hl (by decide))]
  omega

/-- The same for the fields of the text commands (30_encoding.md R61). -/
theorem fields_assemble_text {op a base k : Nat} (h : op < 32) (ha : a < 8) (hb : base < 2 ^ 12) (hk : k < 2 ^ 12) :
    opField (assemble op a 0 0 (base * 2 ^ 12 + k)) = op ∧ slice (assemble op a 0 0 (base * 2 ^ 12 + k)) 26 24 = a ∧
      slice (assemble op a 0 0 (base * 2 ^ 12 + k)) 23 12 = base ∧
      slice (assemble op a 0 0 (base * 2 ^ 12 + k)) 11 0 = k := by
  simp only [opField, slice, toNat_assemble_text h ha (by omega : base * 2 ^ 12 + k < 2 ^ 24)]
  omega

end Sys2Proof
end

