-- ==== Sys2Proof/Laws/Ops.lean ====
section
/-! SUPPORT. What each shared operation can do, once: the commit rule, the shift commit, the CSR reads, and what a command
can answer. Later proofs cite these instead of unfolding the operations. -/

namespace Sys2Proof.Machine

/-- The commit of a result that fits (10_state.md R13). -/
theorem State.commitWith_fits (s s' : State) (rd : Reg) {v : Bits} (h : v.length ≤ Config.cap) :
    s.commitWith s' rd v = s'.setReg rd v := if_neg (by omega)

/-- The commit of a result longer than CAP (10_state.md R13, 60_exceptions.md R183). -/
theorem State.commitWith_overflows (s s' : State) (rd : Reg) {v : Bits} (h : Config.cap < v.length) :
    s.commitWith s' rd v = s.raise .capacity (BitVec.ofNat 32 v.length) := if_pos h

theorem State.commit_fits (s : State) (rd : Reg) {v : Bits} (h : v.length ≤ Config.cap) :
    s.commit rd v = s.setReg rd v := s.commitWith_fits s rd h

theorem State.commit_overflows (s : State) (rd : Reg) {v : Bits} (h : Config.cap < v.length) :
    s.commit rd v = s.raise .capacity (BitVec.ofNat 32 v.length) := s.commitWith_overflows s rd h

/-- Everything a commit can do. -/
theorem State.commitWith_cases (s s' : State) (rd : Reg) (v : Bits) :
    (Config.cap < v.length ∧ s.commitWith s' rd v = s.raise .capacity (BitVec.ofNat 32 v.length)) ∨
      (v.length ≤ Config.cap ∧ s.commitWith s' rd v = s'.setReg rd v) := by
  rcases Nat.lt_or_ge Config.cap v.length with h | h
  · exact .inl ⟨h, s.commitWith_overflows s' rd h⟩
  · exact .inr ⟨h, s.commitWith_fits s' rd h⟩

theorem State.shiftCommit_in_range (s : State) (rd : Reg) {n : Nat} (v : Bits) (h : n < Config.maxw) :
    s.shiftCommit rd n v = s.commit rd v := if_neg (by omega)

theorem State.shiftCommit_out_of_range (s : State) (rd : Reg) {n : Nat} (v : Bits) (h : Config.maxw ≤ n) :
    s.shiftCommit rd n v = s.raise .shiftRange (BitVec.ofNat 32 n) := if_pos h

/-- A length a register can hold is read back whole from a 32-bit CSR (00_scope.md R4: CAP < 2^32). -/
theorem toNat_ofNat_of_le_cap {n : Nat} (h : n ≤ Config.cap) : (BitVec.ofNat 32 n).toNat = n := by
  rw [BitVec.toNat_ofNat, Nat.mod_eq_of_lt (lt_of_le_of_lt h (by decide))]

/-- A written register is the only thing a write of it changes. -/
theorem OnlyReg.setReg (s : State) (rd : Reg) (v : Bits) : OnlyReg rd s (s.setReg rd v) :=
  ⟨fun _ h => s.setReg_reg_of_ne h v, ⟨rfl, rfl, rfl⟩, ⟨rfl, rfl, rfl⟩, ⟨rfl, rfl, rfl⟩, fun _ => rfl, ⟨rfl, rfl⟩⟩

/-- Taking a fault changes FAULT, CAUSE and FINFO and nothing else (60_exceptions.md R185). -/
theorem OnlyFault.raise (s : State) (c : Cause) (v : Word) : OnlyFault c v s (s.raise c v) :=
  ⟨rfl, rfl, rfl, fun _ => rfl, ⟨rfl, rfl, rfl⟩, ⟨rfl, rfl, rfl⟩, fun _ => rfl, ⟨rfl, rfl⟩⟩

theorem State.csrWord_of_lt (s : State) {n : Nat} (h : 7 < n) : s.csrWord n = 0#32 := by
  unfold State.csrWord
  split <;> first | omega | rfl

/-- The window check (20_memory.md R57). -/
theorem windowOk_iff (base k : Nat) : windowOk base k = true ↔ base + k ≤ Config.txtsz := by simp [windowOk]

end Sys2Proof.Machine
end

