-- ==== Sys2Proof/Laws/Exec.lean ====
section
/-! SUPPORT. What a command and a step can do, once: the inversion lemmas that proofs over all commands cite instead of
unfolding the meanings. -/

namespace Sys2Proof.Machine

/-- The diagnostic bit of a command: 0 but for SUB and DIV. -/
def Instr.diagnostic (s : State) : Instr → Bool
  | .sub _ ra rb => (sub (s.reg ra) (s.reg rb)).2
  | .div _ ra rb => (div (s.reg ra) (s.reg rb)).2
  | _ => false

/-- Which faults a command raises, when, and with which information word (60_exceptions.md R175). -/
inductive Raises (s : State) : Instr → Cause → Word → Prop where
  | lslRange (rd ra : Reg) (n : Nat) : Config.maxw ≤ n → Raises s (.lsl rd ra n) .shiftRange (BitVec.ofNat 32 n)
  | lsrRange (rd ra : Reg) (n : Nat) : Config.maxw ≤ n → Raises s (.lsr rd ra n) .shiftRange (BitVec.ofNat 32 n)
  | divZero (rd ra rb : Reg) : val (s.reg rb) = 0 → Raises s (.div rd ra rb) .divZero 0#32
  | parseWindow (r : Reg) (base k : Nat) : Config.txtsz < base + k →
      Raises s (.parse r base k) .txtRange (BitVec.ofNat 32 (base + k))
  | tohexWindow (r : Reg) (base : Nat) : Config.txtsz < base + digitCount (s.reg r) →
      Raises s (.tohex r base) .txtRange (BitVec.ofNat 32 (base + digitCount (s.reg r)))
  | malformed (r : Reg) (base k i : Nat) : base + k ≤ Config.txtsz → i < k →
      hexval (s.memRead (charAddr base i)) = none →
      Raises s (.parse r base k) .malformedInput (BitVec.ofNat 32 (base + i))
  | capacity (i : Instr) (rd : Reg) : i.dest = some rd → Config.cap < (Instr.result s i).length →
      Raises s i .capacity (BitVec.ofNat 32 (Instr.result s i).length)

/-- Everything a command can do (60_exceptions.md R185: it raises one fault and does nothing else, or has its effect). -/
inductive Does (s : State) : Instr → State → Prop where
  | raises (i : Instr) (c : Cause) (v : Word) : Raises s i c v → Does s i (s.raise c v)
  | writes (i : Instr) (rd : Reg) : i.dest = some rd → (Instr.result s i).length ≤ Config.cap →
      Does s i ((s.orDiag (Instr.diagnostic s i)).setReg rd (Instr.result s i))
  | getb (ra : Reg) (idx : Nat) : Does s (.getb ra idx) (s.setBit (bitAt (s.reg ra) idx))
  | len (ra : Reg) : Does s (.len ra) (s.setLenr (BitVec.ofNat 32 (s.reg ra).length))
  | cmpge (ra rb : Reg) : Does s (.cmpge ra rb) (s.setGe (ge (s.reg ra) (s.reg rb)))
  | tohex (r : Reg) (base : Nat) : base + digitCount (s.reg r) ≤ Config.txtsz →
      Does s (.tohex r base)
        ((s.setTxt (storeDigits s.txt base (hexDigits (digitCount (s.reg r)) (s.reg r)))).setTxtlen
          (BitVec.ofNat 32 (digitCount (s.reg r))))
  | clrdiag : Does s .clrdiag s.clearDiag

theorem State.orDiag_false (s : State) : s.orDiag false = s := by simp [State.orDiag]

theorem does_commitWith (s : State) (i : Instr) (rd : Reg) (h : i.dest = some rd) :
    Does s i (s.commitWith (s.orDiag (Instr.diagnostic s i)) rd (Instr.result s i)) := by
  rcases s.commitWith_cases (s.orDiag (Instr.diagnostic s i)) rd (Instr.result s i) with ⟨hl, e⟩ | ⟨hl, e⟩
  · rw [e]; exact .raises i _ _ (.capacity i rd h hl)
  · rw [e]; exact .writes i rd h hl

theorem does_commit (s : State) (i : Instr) (rd : Reg) (h : i.dest = some rd) (hd : Instr.diagnostic s i = false) :
    Does s i (s.commit rd (Instr.result s i)) := by
  have := does_commitWith s i rd h
  rwa [hd, State.orDiag_false] at this

/-- A window that passed its check holds no wrapped address, so the address of a character is its 32-bit number. -/
theorem setWidth_charAddr {base k : Nat} (h : base + k < Config.txtsz) :
    (charAddr base k).setWidth 32 = BitVec.ofNat 32 (base + k) := by
  apply BitVec.eq_of_toNat_eq
  have hs : base + k < 4096 := h
  rw [BitVec.toNat_setWidth, toNat_charAddr h, BitVec.toNat_ofNat]

theorem does_parse (s : State) (r : Reg) (base k : Nat) :
    ∃ t, exec (.parse r base k) s = .next t ∧ Does s (.parse r base k) t := by
  refine ⟨_, rfl, ?_⟩
  split
  · rename_i hw
    rw [windowOk_iff] at hw
    have hc := does_commit s (.parse r base k) r rfl rfl
    rcases scanHex_cases s.txt base k with ⟨v, hv, -⟩ | ⟨i, hi, hv, hb, -⟩
    · rw [hv]
      simpa only [Instr.result, hv] using hc
    · rw [hv]
      have hlt : base + i < Config.txtsz := by omega
      simp only [setWidth_charAddr hlt]
      exact .raises _ _ _ (.malformed r base k i hw hi hb)
  · rename_i hw
    rw [windowOk_iff] at hw
    exact .raises _ _ _ (.parseWindow r base k (by omega))

theorem does_shift (s : State) (i : Instr) (rd : Reg) (n : Nat) (h : i.dest = some rd) (hd : Instr.diagnostic s i = false)
    (hr : Config.maxw ≤ n → Raises s i .shiftRange (BitVec.ofNat 32 n)) :
    Does s i (s.shiftCommit rd n (Instr.result s i)) := by
  rcases Nat.lt_or_ge n Config.maxw with hn | hn
  · rw [s.shiftCommit_in_range rd _ hn]; exact does_commit s i rd h hd
  · rw [s.shiftCommit_out_of_range rd _ hn]; exact .raises i _ _ (hr hn)

/-- Every command answers a next state, and does what `Does` lists. -/
theorem exec_does (i : Instr) (s : State) : ∃ t, exec i s = .next t ∧ Does s i t := by
  cases i with
  | clr rd => exact ⟨_, rfl, does_commit s (.clr rd) rd rfl rfl⟩
  | mov rd ra => exact ⟨_, rfl, does_commit s (.mov rd ra) rd rfl rfl⟩
  | apph rd ra b => exact ⟨_, rfl, does_commit s (.apph rd ra b) rd rfl rfl⟩
  | insl rd ra b => exact ⟨_, rfl, does_commit s (.insl rd ra b) rd rfl rfl⟩
  | remh rd ra => exact ⟨_, rfl, does_commit s (.remh rd ra) rd rfl rfl⟩
  | reml rd ra => exact ⟨_, rfl, does_commit s (.reml rd ra) rd rfl rfl⟩
  | strip rd ra => exact ⟨_, rfl, does_commit s (.strip rd ra) rd rfl rfl⟩
  | cplw rd ra size => exact ⟨_, rfl, does_commit s (.cplw rd ra size) rd rfl rfl⟩
  | getb ra idx => exact ⟨_, rfl, .getb ra idx⟩
  | len ra => exact ⟨_, rfl, .len ra⟩
  | parse r base k => exact does_parse s r base k
  | add rd ra rb => exact ⟨_, rfl, does_commit s (.add rd ra rb) rd rfl rfl⟩
  | sub rd ra rb => exact ⟨_, rfl, does_commitWith s (.sub rd ra rb) rd rfl⟩
  | negw rd ra width => exact ⟨_, rfl, does_commit s (.negw rd ra width) rd rfl rfl⟩
  | mul rd ra rb => exact ⟨_, rfl, does_commit s (.mul rd ra rb) rd rfl rfl⟩
  | div rd ra rb =>
    refine ⟨_, rfl, ?_⟩
    split
    · exact .raises _ _ _ (.divZero rd ra rb ‹_›)
    · exact does_commitWith s (.div rd ra rb) rd rfl
  | cmpge ra rb => exact ⟨_, rfl, .cmpge ra rb⟩
  | lsl rd ra n => exact ⟨_, rfl, does_shift s (.lsl rd ra n) rd n rfl rfl (.lslRange rd ra n)⟩
  | lsr rd ra n => exact ⟨_, rfl, does_shift s (.lsr rd ra n) rd n rfl rfl (.lsrRange rd ra n)⟩
  | tohex r base =>
    refine ⟨_, rfl, ?_⟩
    split
    · exact .tohex r base ((windowOk_iff _ _).1 ‹_›)
    · exact .raises _ _ _ (.tohexWindow r base (by have := mt (windowOk_iff _ _).2 ‹_›; omega))
  | clrdiag => exact ⟨_, rfl, .clrdiag⟩

/-- The inversion of a command: if it answers next t, it does one of the things `Does` lists. -/
theorem does_of_exec {i : Instr} {s t : State} (h : exec i s = .next t) : Does s i t := by
  obtain ⟨u, hu, hd⟩ := exec_does i s
  rw [h] at hu
  cases hu
  exact hd

/-- The inversion of HostCmd on a block that is not faulted. -/
theorem hostCmd_cases {w : Word} {s t : State} (hf : s.fault = false) (h : hostCmd w s = .next t) :
    (∃ i, decode w = .command i ∧ exec i s = .next t) ∨
      ((∃ why, decode w = .illegal why) ∧ t = s.raise .illegalCmd w) := by
  unfold hostCmd at h
  rw [hf] at h
  simp only [Bool.false_eq_true, if_false] at h
  split at h
  · exact .inl ⟨_, ‹_›, h⟩
  · cases h; exact .inr ⟨⟨_, ‹_›⟩, rfl⟩

/-- A decoded command's immediates fit their fields (30_encoding.md R63). -/
theorem wellFormed_of_decode {w : Word} {i : Instr} (h : decode w = .command i) : i.WellFormed := by
  obtain ⟨op, -, -, rfl⟩ := (decode_command_iff w i).1 h
  have h16 : imm16Ok (imm16Field w) = true := decide_eq_true (slice_lt w 15 0)
  have hb : imm12Ok (baseField w) = true := decide_eq_true (slice_lt w 23 12)
  have hl : imm12Ok (lenField w) = true := decide_eq_true (slice_lt w 11 0)
  cases op <;> simp [Opcode.instr, Instr.WellFormed, Instr.wellFormed, h16, hb, hl]

/-- The commands whose result is never longer than a source, so that their commit never raises CAPACITY, and the bound that
every result of a well-formed command on registers that fit keeps (60_exceptions.md R175, row CAPACITY). -/
theorem length_result {s : State} (hs : ∀ r, (s.reg r).length ≤ Config.cap) {i : Instr} (hw : i.WellFormed) :
    (Instr.result s i).length ≤ 2 ^ 17 ∧
      (Config.cap < (Instr.result s i).length →
        i.opcode ∈ [.apph, .insl, .cplw, .negw, .parse, .add, .mul, .lsl]) := by
  have hs' : ∀ r, (s.reg r).length ≤ 8192 := hs
  cases i with
  | clr rd => simp [Instr.result, Config.cap]
  | mov rd ra =>
    have := hs' ra
    simp [Instr.result, Config.cap]; omega
  | apph rd ra b =>
    have := hs' ra
    simp [Instr.result, Instr.opcode]; omega
  | insl rd ra b =>
    have := hs' ra
    simp [Instr.result, Instr.opcode]; omega
  | remh rd ra =>
    have := hs' ra
    simp [Instr.result, removeHighest, Config.cap]; omega
  | reml rd ra =>
    have := hs' ra
    simp [Instr.result, Config.cap]; omega
  | strip rd ra =>
    have := hs' ra
    have := length_strip_le (s.reg ra)
    simp only [Instr.result, Config.cap]; omega
  | cplw rd ra size =>
    simp [Instr.WellFormed, Instr.wellFormed, imm16Ok] at hw
    simp [Instr.result, Instr.opcode]; omega
  | getb ra idx => simp [Instr.result, Config.cap]
  | len ra => simp [Instr.result, Config.cap]
  | parse r base k =>
    simp [Instr.WellFormed, Instr.wellFormed, imm12Ok] at hw
    refine ⟨?_, by simp [Instr.opcode]⟩
    rcases scanHex_cases s.txt base k with ⟨v, hv, hl, -⟩ | ⟨i, -, hv, -⟩
    · simp only [Instr.result, hv]
      have := length_strip_le v
      omega
    · simp [Instr.result, hv]
  | add rd ra rb =>
    have := hs' ra
    have := hs' rb
    have hb : bitlen (val (s.reg ra) + val (s.reg rb)) ≤ 8193 := by
      rw [bitlen_le_iff]
      have h1 := lt_of_lt_of_le (val_lt_two_pow (s.reg ra)) (Nat.pow_le_pow_right (by omega) (hs' ra))
      have h2 := lt_of_lt_of_le (val_lt_two_pow (s.reg rb)) (Nat.pow_le_pow_right (by omega) (hs' rb))
      rw [Nat.pow_succ]; omega
    simp only [Instr.result, length_add]
    exact ⟨by omega, by simp [Instr.opcode]⟩
  | sub rd ra rb =>
    have := hs' ra
    have := length_sub_le (s.reg ra) (s.reg rb)
    simp only [Instr.result, Config.cap]; omega
  | negw rd ra width =>
    simp [Instr.WellFormed, Instr.wellFormed, imm16Ok] at hw
    simp only [Instr.result, length_negw]
    exact ⟨by split <;> omega, by simp [Instr.opcode]⟩
  | mul rd ra rb =>
    refine ⟨?_, by simp [Instr.opcode]⟩
    have := hs' ra
    have := hs' rb
    have key : ∀ a b : Bits, a.length ≤ 8192 → b.length ≤ 8192 → (mulFrom a b 0 []).length ≤ 2 ^ 17 := by
      intro a b ha hb
      by_cases h0 : val b = 0
      · simp [mulFrom_of_val_zero _ _ _ _ h0]
      · have h1 := bitlen_val_le b
        have h2 : bitlen (val a * val b) ≤ a.length + b.length := by
          rw [bitlen_le_iff, Nat.pow_add]
          exact Nat.mul_lt_mul'' (val_lt_two_pow a) (val_lt_two_pow b)
        rw [length_mulFrom _ _ _ _ h0]
        simp only [List.length_nil, val_nil, Nat.pow_zero, Nat.one_mul, Nat.zero_add]
        omega
    simp only [Instr.result, mul]
    split
    · exact key _ _ (hs' rb) (hs' ra)
    · exact key _ _ (hs' ra) (hs' rb)
  | div rd ra rb =>
    have := hs' ra
    have := length_div_le (s.reg ra) (s.reg rb)
    simp only [Instr.result, Config.cap]; omega
  | cmpge ra rb => simp [Instr.result, Config.cap]
  | lsl rd ra n =>
    have := hs' ra
    simp [Instr.WellFormed, Instr.wellFormed, imm16Ok] at hw
    simp [Instr.result, Instr.opcode]; omega
  | lsr rd ra n =>
    have := hs' ra
    simp [Instr.result, Config.cap]; omega
  | tohex r base => simp [Instr.result, Config.cap]
  | clrdiag => simp [Instr.result, Config.cap]

end Sys2Proof.Machine
end

