-- ==== Sys2Proof/Laws/PerInstr.lean ====
section
/-! SUPPORT. The family EncodesItsRow: the word of a well-formed command carries the opcode of its row and has every
must-be-zero bit of its format 0 (30_encoding.md R60, R62, R64), one lemma per constructor. -/

namespace Sys2Proof.Laws.EncodesItsRow

/-- The word of a well-formed command is a word of its row. -/
def Statement (i : Instr) : Prop :=
  i.WellFormed → opField (encode i) = i.opcode.num ∧ i.opcode.MbzClear (encode i)

theorem clr (rd : Reg) : Statement (.clr rd) := by
  intro _
  have hrd := rd.num_lt
  simp [encode, Instr.opcode, Opcode.MbzClear, Opcode.mustBeZero, Opcode.num, opField, slice, assemble]
  omega

theorem mov (rd : Reg) (ra : Reg) : Statement (.mov rd ra) := by
  intro _
  have hrd := rd.num_lt
  have hra := ra.num_lt
  simp [encode, Instr.opcode, Opcode.MbzClear, Opcode.mustBeZero, Opcode.num, opField, slice, assemble]
  omega

theorem apph (rd : Reg) (ra : Reg) (b : Bool) : Statement (.apph rd ra b) := by
  intro _
  have hrd := rd.num_lt
  have hra := ra.num_lt
  have hb := b.toNat_lt
  simp [encode, Instr.opcode, Opcode.MbzClear, Opcode.mustBeZero, Opcode.num, opField, slice, assemble]
  omega

theorem insl (rd : Reg) (ra : Reg) (b : Bool) : Statement (.insl rd ra b) := by
  intro _
  have hrd := rd.num_lt
  have hra := ra.num_lt
  have hb := b.toNat_lt
  simp [encode, Instr.opcode, Opcode.MbzClear, Opcode.mustBeZero, Opcode.num, opField, slice, assemble]
  omega

theorem remh (rd : Reg) (ra : Reg) : Statement (.remh rd ra) := by
  intro _
  have hrd := rd.num_lt
  have hra := ra.num_lt
  simp [encode, Instr.opcode, Opcode.MbzClear, Opcode.mustBeZero, Opcode.num, opField, slice, assemble]
  omega

theorem reml (rd : Reg) (ra : Reg) : Statement (.reml rd ra) := by
  intro _
  have hrd := rd.num_lt
  have hra := ra.num_lt
  simp [encode, Instr.opcode, Opcode.MbzClear, Opcode.mustBeZero, Opcode.num, opField, slice, assemble]
  omega

theorem strip (rd : Reg) (ra : Reg) : Statement (.strip rd ra) := by
  intro _
  have hrd := rd.num_lt
  have hra := ra.num_lt
  simp [encode, Instr.opcode, Opcode.MbzClear, Opcode.mustBeZero, Opcode.num, opField, slice, assemble]
  omega

theorem cplw (rd : Reg) (ra : Reg) (size : Nat) : Statement (.cplw rd ra size) := by
  intro h
  simp [Instr.WellFormed, Instr.wellFormed, imm16Ok] at h
  have hrd := rd.num_lt
  have hra := ra.num_lt
  simp [encode, Instr.opcode, Opcode.MbzClear, Opcode.mustBeZero, Opcode.num, opField, slice, assemble]
  omega

theorem getb (ra : Reg) (idx : Nat) : Statement (.getb ra idx) := by
  intro h
  simp [Instr.WellFormed, Instr.wellFormed, imm16Ok] at h
  have hra := ra.num_lt
  simp [encode, Instr.opcode, Opcode.MbzClear, Opcode.mustBeZero, Opcode.num, opField, slice, assemble]
  omega

theorem len (ra : Reg) : Statement (.len ra) := by
  intro _
  have hra := ra.num_lt
  simp [encode, Instr.opcode, Opcode.MbzClear, Opcode.mustBeZero, Opcode.num, opField, slice, assemble]
  omega

theorem parse (r : Reg) (base : Nat) (k : Nat) : Statement (.parse r base k) := by
  intro h
  simp [Instr.WellFormed, Instr.wellFormed, imm12Ok] at h
  have hr := r.num_lt
  simp [encode, Instr.opcode, Opcode.MbzClear, Opcode.mustBeZero, Opcode.num, opField, slice, assemble]
  omega

theorem add (rd : Reg) (ra : Reg) (rb : Reg) : Statement (.add rd ra rb) := by
  intro _
  have hrd := rd.num_lt
  have hra := ra.num_lt
  have hrb := rb.num_lt
  simp [encode, Instr.opcode, Opcode.MbzClear, Opcode.mustBeZero, Opcode.num, opField, slice, assemble]
  omega

theorem sub (rd : Reg) (ra : Reg) (rb : Reg) : Statement (.sub rd ra rb) := by
  intro _
  have hrd := rd.num_lt
  have hra := ra.num_lt
  have hrb := rb.num_lt
  simp [encode, Instr.opcode, Opcode.MbzClear, Opcode.mustBeZero, Opcode.num, opField, slice, assemble]
  omega

theorem negw (rd : Reg) (ra : Reg) (width : Nat) : Statement (.negw rd ra width) := by
  intro h
  simp [Instr.WellFormed, Instr.wellFormed, imm16Ok] at h
  have hrd := rd.num_lt
  have hra := ra.num_lt
  simp [encode, Instr.opcode, Opcode.MbzClear, Opcode.mustBeZero, Opcode.num, opField, slice, assemble]
  omega

theorem mul (rd : Reg) (ra : Reg) (rb : Reg) : Statement (.mul rd ra rb) := by
  intro _
  have hrd := rd.num_lt
  have hra := ra.num_lt
  have hrb := rb.num_lt
  simp [encode, Instr.opcode, Opcode.MbzClear, Opcode.mustBeZero, Opcode.num, opField, slice, assemble]
  omega

theorem div (rd : Reg) (ra : Reg) (rb : Reg) : Statement (.div rd ra rb) := by
  intro _
  have hrd := rd.num_lt
  have hra := ra.num_lt
  have hrb := rb.num_lt
  simp [encode, Instr.opcode, Opcode.MbzClear, Opcode.mustBeZero, Opcode.num, opField, slice, assemble]
  omega

theorem cmpge (ra : Reg) (rb : Reg) : Statement (.cmpge ra rb) := by
  intro _
  have hra := ra.num_lt
  have hrb := rb.num_lt
  simp [encode, Instr.opcode, Opcode.MbzClear, Opcode.mustBeZero, Opcode.num, opField, slice, assemble]
  omega

theorem lsl (rd : Reg) (ra : Reg) (n : Nat) : Statement (.lsl rd ra n) := by
  intro h
  simp [Instr.WellFormed, Instr.wellFormed, imm16Ok] at h
  have hrd := rd.num_lt
  have hra := ra.num_lt
  simp [encode, Instr.opcode, Opcode.MbzClear, Opcode.mustBeZero, Opcode.num, opField, slice, assemble]
  omega

theorem lsr (rd : Reg) (ra : Reg) (n : Nat) : Statement (.lsr rd ra n) := by
  intro h
  simp [Instr.WellFormed, Instr.wellFormed, imm16Ok] at h
  have hrd := rd.num_lt
  have hra := ra.num_lt
  simp [encode, Instr.opcode, Opcode.MbzClear, Opcode.mustBeZero, Opcode.num, opField, slice, assemble]
  omega

theorem tohex (r : Reg) (base : Nat) : Statement (.tohex r base) := by
  intro h
  simp [Instr.WellFormed, Instr.wellFormed, imm12Ok] at h
  have hr := r.num_lt
  simp [encode, Instr.opcode, Opcode.MbzClear, Opcode.mustBeZero, Opcode.num, opField, slice, assemble]
  omega

theorem clrdiag : Statement (.clrdiag) := by
  intro _
  simp [encode, Instr.opcode, Opcode.MbzClear, Opcode.mustBeZero, Opcode.num, opField, slice, assemble]

end Sys2Proof.Laws.EncodesItsRow
end

