-- ==== Sys2Proof/Tests/Slice0.lean ====
section
/-! SUPPORT. Tests of the model: ill-formed commands are refused, the words the spec writes out decode, single steps
agree with the spec's examples (30_encoding.md, 95_test_vectors.md, the examples of the rules), and each statement's
hypotheses are met somewhere. -/

namespace Sys2Proof.Tests

open Sys2Proof Sys2Proof.Machine

/-! ### WellFormed refuses what no command word can express (30_encoding.md R61) -/

theorem test_wf_cplw_size_too_wide : ¬ (Instr.cplw .r2 .r1 65536).WellFormed := by decide
theorem test_wf_getb_index_too_wide : ¬ (Instr.getb .r1 65536).WellFormed := by decide
theorem test_wf_negw_width_too_wide : ¬ (Instr.negw .r2 .r1 65536).WellFormed := by decide
theorem test_wf_lsl_count_too_wide : ¬ (Instr.lsl .r2 .r1 65536).WellFormed := by decide
theorem test_wf_lsr_count_too_wide : ¬ (Instr.lsr .r2 .r1 65536).WellFormed := by decide
theorem test_wf_parse_base_too_wide : ¬ (Instr.parse .r1 4096 0).WellFormed := by decide
theorem test_wf_parse_len_too_wide : ¬ (Instr.parse .r1 0 4096).WellFormed := by decide
theorem test_wf_tohex_base_too_wide : ¬ (Instr.tohex .r1 4096).WellFormed := by decide

/-! ### Decoding: a word per command (95_test_vectors.md parts 1 and 2; 30_encoding.md R66 for the illegal ones) -/

theorem test_decode_clr : decode 0x0D000000#32 = .command (.clr .r5) := by decide
theorem test_decode_mov : decode 0x17E00000#32 = .command (.mov .r7 .r7) := by decide
theorem test_decode_apph : decode 0x19200001#32 = .command (.apph .r1 .r1 true) := by decide
theorem test_decode_insl : decode 0x22200000#32 = .command (.insl .r2 .r1 false) := by decide
theorem test_decode_remh : decode 0x2A200000#32 = .command (.remh .r2 .r1) := by decide
theorem test_decode_reml : decode 0x32200000#32 = .command (.reml .r2 .r1) := by decide
theorem test_decode_strip : decode 0x3A200000#32 = .command (.strip .r2 .r1) := by decide
theorem test_decode_cplw : decode 0x42202000#32 = .command (.cplw .r2 .r1 8192) := by decide
theorem test_decode_getb : decode 0x4820FFFF#32 = .command (.getb .r1 65535) := by decide
theorem test_decode_len : decode 0x50A00000#32 = .command (.len .r5) := by decide
theorem test_decode_parse : decode 0x5F800800#32 = .command (.parse .r7 0x800 0x800) := by decide
theorem test_decode_add : decode 0x66C80000#32 = .command (.add .r6 .r6 .r2) := by decide
theorem test_decode_sub : decode 0x6D840000#32 = .command (.sub .r5 .r4 .r1) := by decide
theorem test_decode_negw : decode 0x72200005#32 = .command (.negw .r2 .r1 5) := by decide
theorem test_decode_mul : decode 0x7B240000#32 = .command (.mul .r3 .r1 .r1) := by decide
theorem test_decode_div : decode 0x83040000#32 = .command (.div .r3 .r0 .r1) := by decide
theorem test_decode_cmpge : decode 0x884C0000#32 = .command (.cmpge .r2 .r3) := by decide
theorem test_decode_lsl : decode 0x97400040#32 = .command (.lsl .r7 .r2 64) := by decide
theorem test_decode_lsr : decode 0x9FE0003C#32 = .command (.lsr .r7 .r7 60) := by decide
theorem test_decode_tohex : decode 0xA1FFF000#32 = .command (.tohex .r1 0xFFF) := by decide
theorem test_decode_clrdiag : decode 0xA8000000#32 = .command .clrdiag := by decide

theorem test_decode_all_zero_word : decode 0x00000000#32 = .illegal .reservedOpcode := by decide
theorem test_decode_all_one_word : decode 0xFFFFFFFF#32 = .illegal .reservedOpcode := by decide
theorem test_decode_first_reserved_opcode : decode 0xB0000000#32 = .illegal .reservedOpcode := by decide
theorem test_decode_must_be_zero_bit : decode 0xA8000001#32 = .illegal .mustBeZeroBitSet := by decide

theorem test_table_word : decodeTableWord 32 0x63280000 = some (.add .r3 .r1 .r2) := by decide
theorem test_table_word_illegal : decodeTableWord 32 0 = none := by decide

/-! ### Small states for single steps -/

/-- R1, R2 and R3 as given, the other registers empty. -/
def regs (a b c : Bits) : RegFile := ⟨[], a, b, c, [], [], [], []⟩

/-- A block that is not faulted, whose flag BIT is 1. -/
def demo (f : RegFile) (m : List Host.Cell) : State := { State.reset with regs := f, txt := m, bit := true }

/-- R1 and R2 as given. -/
def two (a b : Bits) : State := demo (regs a b []) []

/-- R1 as given. -/
def one (a : Bits) : State := two a []

/-- The host issues one transaction next. -/
def issuing (s : State) (tx : HostTx) : State := s.setQueue [tx]

/-- The faulted block. -/
def faulted : State := (one [true]).raise .divZero 0#32

/-- What a next state is seen to hold; nothing for any other answer. -/
def seen {α : Type} (r : Result) (g : State → α) : Option α :=
  match r with
  | .next t => some (g t)
  | .fault _ => none
  | .refused _ => none

theorem demo_inv (f : RegFile) (m : List Host.Cell) (hf : ∀ r, (f.get r).length ≤ Config.cap)
    (hm : Memory.wf m = true) : (demo f m).Inv where
  regsFit := hf
  txtWf := hm
  signZero := rfl
  faultCause := by simp [demo, State.reset]
  finfo := rfl
  lenr := by simp [demo, State.reset]
  txtlen := by simp [demo, State.reset]

theorem two_inv (a b : Bits) (ha : a.length ≤ Config.cap) (hb : b.length ≤ Config.cap) : (two a b).Inv :=
  demo_inv _ _ (fun r => by cases r <;> simp [regs, RegFile.get, ha, hb]) rfl

theorem one_inv (a : Bits) (ha : a.length ≤ Config.cap) : (one a).Inv := two_inv a [] ha (Nat.zero_le _)

/-! ### Single commands -/

-- 40_bitseq.md R82, R83 and 95_test_vectors.md 2.1
theorem test_clr : seen (exec (.clr .r1) (one [true, false, true])) (·.reg .r1) = some [] := by decide
theorem test_mov_keeps_high_zero :
    seen (exec (.mov .r2 .r1) (one [false, true, false])) (·.reg .r2) = some [false, true, false] := by decide
theorem test_apph_zero_on_empty : seen (exec (.apph .r2 .r2 false) (one [])) (·.reg .r2) = some [false] := by decide
theorem test_apph_one : seen (exec (.apph .r1 .r1 true) (one [true])) (·.reg .r1) = some [true, true] := by decide
theorem test_insl : seen (exec (.insl .r2 .r1 false) (one [true, true])) (·.reg .r2) = some [false, true, true] := by
  decide
theorem test_remh : seen (exec (.remh .r1 .r1) (one [true, false, true])) (·.reg .r1) = some [true, false] := by decide
theorem test_remh_empty : seen (exec (.remh .r2 .r1) (one [])) (·.reg .r2) = some [] := by decide
theorem test_reml : seen (exec (.reml .r2 .r1) (one [true, false, true])) (·.reg .r2) = some [false, true] := by decide
theorem test_strip : seen (exec (.strip .r1 .r1) (one [true, false, false])) (·.reg .r1) = some [true] := by decide
theorem test_strip_zeros : seen (exec (.strip .r2 .r1) (one [false, false, false, false])) (·.reg .r2) = some [] := by
  decide
theorem test_cplw_extends :
    seen (exec (.cplw .r2 .r1 5) (one [true])) (·.reg .r2) = some [false, true, true, true, true] := by decide
theorem test_cplw_truncates :
    seen (exec (.cplw .r2 .r1 2) (one [true, false, true, true])) (·.reg .r2) = some [false, true] := by decide
theorem test_getb : seen (exec (.getb .r1 1) { one [false, true] with bit := false }) (·.bit) = some true := by decide
theorem test_getb_beyond : seen (exec (.getb .r1 2) (one [false, true])) (·.bit) = some false := by decide
theorem test_len_raw : seen (exec (.len .r1) (one [true, false, false])) (·.lenr) = some 3#32 := by decide

-- 95_test_vectors.md 2.2 ("aBc") and program P4
theorem test_parse_mixed_case :
    seen (exec (.parse .r1 0 3) (demo (regs [] [] []) [(0, 0x61#8), (1, 0x42#8), (2, 0x63#8)])) (·.reg .r1) =
      some [false, false, true, true, true, true, false, true, false, true, false, true] := by decide
theorem test_parse_malformed :
    seen (exec (.parse .r2 0 2) (demo (regs [] [] []) [(0, 0x31#8), (1, 0x47#8)]))
      (fun t => (t.fault, t.cause, t.finfo, t.reg .r2)) = some (true, .malformedInput, 1#32, []) := by decide

-- 95_test_vectors.md 2.3
theorem test_add_ripples :
    seen (exec (.add .r3 .r1 .r2) (two [true, true, true, true] [true])) (·.reg .r3) =
      some [false, false, false, false, true] := by decide
theorem test_add_not_canonical :
    seen (exec (.add .r3 .r1 .r2) (two [true, false, false] [true])) (·.reg .r3) = some [false, true, false] := by decide
theorem test_negw : seen (exec (.negw .r2 .r1 5) (one [true])) (·.reg .r2) = some [true, true, true, true, true] := by
  decide
theorem test_negw_of_zero : seen (exec (.negw .r2 .r1 3) (one [])) (·.reg .r2) = some [false, false, false, true] := by
  decide
theorem test_sub_wraps :
    seen (exec (.sub .r3 .r1 .r2) (two [false, false, false, false, true] [true, true, true, true, true]))
      (fun t => (t.reg .r3, t.diag)) = some ([true, false, false, false, true], false) := by decide
theorem test_sub_unsupported :
    seen (exec (.sub .r3 .r1 .r2) (two [true] [false, false])) (fun t => (t.reg .r3, t.diag, t.fault)) =
      some ([], true, false) := by decide

-- 95_test_vectors.md 2.4
theorem test_mul : seen (exec (.mul .r3 .r1 .r2) (two [false, true, false, true] [false, true, false, true])) (·.reg .r3) =
    some [false, false, true, false, false, true, true] := by decide
theorem test_mul_tie_takes_first_as_left :
    seen (exec (.mul .r3 .r1 .r2) (two [true, false] [true, true])) (·.reg .r3) = some [true, true, false] := by decide

-- 95_test_vectors.md 2.5
theorem test_div :
    seen (exec (.div .r3 .r1 .r2) (two [false, false, true, false, false, true, true] [false, true, false, true]))
      (fun t => (t.reg .r3, t.diag)) = some ([false, true, false, true], false) := by decide
theorem test_div_non_canonical_divisor :
    seen (exec (.div .r3 .r1 .r2) (two [true, true, false, true] [true, true, false, false]))
      (fun t => (t.reg .r3, t.diag)) = some ([false, true], true) := by decide
theorem test_cmpge_less : seen (exec (.cmpge .r1 .r2) (two [true, true] [false, false, true])) (·.ge) = some false := by
  decide
theorem test_cmpge_by_value : seen (exec (.cmpge .r1 .r2) (two [] [false, false])) (·.ge) = some true := by decide

-- 95_test_vectors.md 2.6
theorem test_lsl : seen (exec (.lsl .r2 .r1 3) (one [true, false, true])) (·.reg .r2) =
    some [false, false, false, true, false, true] := by decide
theorem test_lsl_out_of_range : exec (.lsl .r2 .r1 4096) (one [true]) = .next ((one [true]).raise .shiftRange 0x1000#32) := by
  simp [exec, execLsl, State.shiftCommit, Config.maxw]
theorem test_lsr : seen (exec (.lsr .r2 .r1 1) (one [true, true, false])) (·.reg .r2) = some [true, false] := by decide
theorem test_lsr_above_length : seen (exec (.lsr .r2 .r1 5) (one [true, true, true])) (·.reg .r2) = some [] := by decide

-- 95_test_vectors.md 2.7: value 1 of length 5 is written "01"; five bits do not fit at the last cell (46_tohex.md R160)
theorem test_tohex_non_canonical :
    seen (exec (.tohex .r1 0x10) (one [true, false, false, false, false]))
      (fun t => (t.memRead 0x10#12, t.memRead 0x11#12, t.txtlen)) = some (0x30#8, 0x31#8, 2#32) := by decide
theorem test_tohex_window :
    seen (exec (.tohex .r1 0xFFF) (one [true, false, false, false, false]))
      (fun t => (t.fault, t.cause, t.finfo, t.txt.length, t.txtlen)) = some (true, .txtRange, 0x1001#32, 0, 0#32) := by decide

-- 47_system.md R170
theorem test_clrdiag : seen (exec .clrdiag { one [] with diag := true }) (·.diag) = some false := by decide

/-! ### The host transactions -/

-- 60_exceptions.md R184, R186; 70_reset_and_hazards.md R200
theorem test_step_illegal_word :
    seen (step (issuing (one [true]) (.cmd 0xB0000000#32))) (fun t => (t.fault, t.cause, t.finfo, t.reg .r1)) =
      some (true, .illegalCmd, 0xB0000000#32, [true]) := by decide
theorem test_step_discards_after_fault :
    seen (step (issuing faulted (.cmd 0x0A000000#32))) (·.regs) = some faulted.regs := by decide
theorem test_step_reset :
    seen (step (issuing { faulted with txt := [(3, 0x41#8)] } .reset)) (fun t => (t.fault, t.reg .r1, t.memRead 3#12)) =
      some (false, [], 0x41#8) := by decide
theorem test_step_status_read :
    seen (step (issuing { one [] with ge := true } (.csrRead 0#3))) (·.hostAnswers) = some [.csrWord 0xC#32] := by decide
theorem test_first_step_after_reset :
    seen (step (State.reset.withFetchWord 32 0x19200001)) (·.reg .r1) = some [true] := by decide

/-! ### Every statement's hypotheses are met: one witness for each statement that has any, and for each of its clauses -/

/-- A text memory whose first `n` cells from `lo` on hold the character `c`. -/
def filled (c : Byte) : Nat → Nat → List Host.Cell
  | _, 0 => []
  | lo, n + 1 => (lo, c) :: filled c (lo + 1) n

theorem lookup_filled (c : Byte) (lo n a : Nat) (h1 : lo ≤ a) (h2 : a < lo + n) :
    Memory.lookup (filled c lo n) a = some c := by
  induction n generalizing lo with
  | zero => omega
  | succ n ih =>
    rw [filled, Memory.lookup]
    split
    · rfl
    · rename_i h
      exact ih (lo + 1) (by simp only at h; omega) (by omega)

theorem memRead_filled (f : RegFile) (c : Byte) (n j : Nat) (hn : n ≤ 4096) (hj : j < n) :
    (demo f (filled c 0 n)).memRead (BitVec.ofNat 12 j) = c := by
  have : j % 4096 = j := Nat.mod_eq_of_lt (by omega)
  simp [demo, State.memRead, Memory.read, this, lookup_filled c 0 n j (by omega) (by omega)]

/-- A text memory of `n` digits 1 from address 0 on: 2048 of them make 8189 bits, 2049 make 8193. -/
def digits (n : Nat) : State := demo (regs [] [] []) (filled 0x31#8 0 n)

theorem digits_allHex (n : Nat) (hn : n ≤ 4096) : (digits n).AllHex 0 n := by
  intro j hj
  rw [Nat.zero_add, digits, memRead_filled _ _ _ _ hn hj]
  decide

theorem witness_encode : (Instr.parse .r7 4095 4095).WellFormed ∧ (Instr.lsl .r7 .r7 65535).WellFormed := by decide

theorem witness_decode : decode 0xA8000000#32 = .command .clrdiag := by decide

theorem witness_illegal : (one []).fault = false ∧ decode 0x00000000#32 = .illegal .reservedOpcode ∧
    decode 0xB0000000#32 = .illegal .reservedOpcode ∧ decode 0x08000001#32 = .illegal .mustBeZeroBitSet := by decide

theorem witness_step : (issuing (one []) (.cmd 0xA8000000#32)).hostQueue = .cmd 0xA8000000#32 :: [] ∧
    (issuing (one []) (.cmd 0xA8000000#32)).fault = false ∧ decode 0xA8000000#32 = .command .clrdiag := by decide

theorem witness_idle : (one []).hostQueue = [] ∧ (issuing (one []) .reset).hostQueue = .reset :: [] := ⟨rfl, rfl⟩

theorem witness_faulted : faulted.fault = true ∧ hostTransact .reset faulted = .next faulted.hostReset ∧
    hostTransact (.cmd 0xA8000000#32) faulted = .next faulted := ⟨rfl, rfl, rfl⟩

theorem witness_first_fault_kept : faulted.fault = true ∧ HostTx.cmd 0xB0000000#32 ≠ .reset ∧
    hostTransact (.cmd 0xB0000000#32) faulted = .next faulted := ⟨rfl, by decide, rfl⟩

theorem witness_host_write : (0#12 : TxtAddr) ≠ 4095#12 := by decide

theorem witness_host_text_read : (one []).txt = [] ∧ (0#12 : TxtAddr) ≠ 4095#12 := ⟨rfl, by decide⟩

theorem witness_csr_above_seven : 7 < 8 ∧ (one [true]).Inv := ⟨by decide, one_inv _ (by decide)⟩

theorem witness_invariant_kept : (one [true]).Inv ∧ step (one [true]) = .next (one [true]) := ⟨one_inv _ (by decide), rfl⟩

theorem witness_precise_fault : (one [true]).fault = false ∧
    hostCmd 0x00000000#32 (one [true]) = .next ((one [true]).raise .illegalCmd 0#32) ∧
    ((one [true]).raise .illegalCmd 0#32).fault = true ∧
    hostCmd 0xA8000000#32 (one [true]) = .next (one [true]) := ⟨rfl, rfl, rfl, rfl⟩

/-- A command, the cause it raises in a state, and the information word. -/
abbrev FaultsWith (w : Word) (s : State) (c : Cause) (v : Nat) : Prop :=
  s.Inv ∧ s.fault = false ∧ hostCmd w s = .next (s.raise c (BitVec.ofNat 32 v)) ∧ (s.raise c (BitVec.ofNat 32 v)).fault = true

theorem witness_cause_malformed : FaultsWith 0x59FFF001#32 (demo (regs [] [] []) [(4095, 0x47#8)]) .malformedInput 4095 :=
  ⟨demo_inv _ _ (fun r => by cases r <;> exact Nat.zero_le _) (by decide), rfl, rfl, rfl⟩

theorem witness_cause_shift : FaultsWith 0x92201000#32 (one []) .shiftRange 4096 ∧ FaultsWith 0x9A20FFFF#32 (one []) .shiftRange 65535 :=
  ⟨⟨one_inv _ (by decide), rfl, rfl, rfl⟩, ⟨one_inv _ (by decide), rfl, rfl, rfl⟩⟩

theorem witness_cause_divZero : FaultsWith 0x83280000#32 (two [true] [false, false]) .divZero 0 :=
  ⟨two_inv _ _ (by decide) (by decide), rfl, rfl, rfl⟩

theorem witness_cause_txtRange : FaultsWith 0x59FFF002#32 (one []) .txtRange 4097 ∧ FaultsWith 0x59FFFFFF#32 (one []) .txtRange 8190 ∧
    FaultsWith 0xA1FFF000#32 (one [true, true, true, true, true]) .txtRange 4097 :=
  ⟨⟨one_inv _ (by decide), rfl, rfl, rfl⟩, ⟨one_inv _ (by decide), rfl, rfl, rfl⟩, ⟨one_inv _ (by decide), rfl, rfl, rfl⟩⟩

theorem witness_cause_capacity : FaultsWith 0x42202001#32 (one []) .capacity 8193 := by
  refine ⟨one_inv _ (by decide), rfl, ?_, rfl⟩
  rw [hostCmd, show decode 0x42202001#32 = .command (.cplw .r2 .r1 8193) by decide]
  simp only [exec, execCplw, show (one []).fault = false from rfl, Bool.false_eq_true, if_false]
  rw [State.commit_overflows _ _ (by rw [length_cplw]; decide), length_cplw]

/-- The premises of the last check: a result of 8193 bits of a command with no earlier check. -/
theorem witness_capacity_order : decode 0x42202001#32 = .command (.cplw .r2 .r1 8193) ∧
    Config.cap < (Instr.result (one []) (.cplw .r2 .r1 8193)).length := by
  refine ⟨by decide, ?_⟩
  rw [Instr.result, length_cplw]; decide

theorem witness_cause_illegal : FaultsWith 0xB0000000#32 (one []) .illegalCmd 0xB0000000 :=
  ⟨one_inv _ (by decide), rfl, rfl, rfl⟩

/-- The premises of the order of the checks that 60_exceptions.md R187 illustrates: a bad count, a bad window, a divisor of
value 0, and the invalid character of highest address. -/
theorem witness_order_of_checks :
    decode 0x91201388#32 = .command (.lsl .r1 .r1 5000) ∧ Config.maxw ≤ 5000 ∧
    decode 0x9A201000#32 = .command (.lsr .r2 .r1 4096) ∧ Config.maxw ≤ 4096 ∧
    decode 0x59FFF002#32 = .command (.parse .r1 0xFFF 2) ∧ Config.txtsz < 0xFFF + 2 ∧
    decode 0xA1FFF000#32 = .command (.tohex .r1 0xFFF) ∧
    Config.txtsz < 0xFFF + max 1 ((((one [true, true, true, true, true]).reg .r1).length + 3) / 4) ∧
    decode 0x83280000#32 = .command (.div .r3 .r1 .r2) ∧ val ((two [true] [false]).reg .r2) = 0 := by decide

theorem witness_malformed_order :
    decode 0x59000002#32 = .command (.parse .r1 0 2) ∧ 0 + 2 ≤ Config.txtsz ∧ 0 < 2 ∧
    hexval ((demo (regs [] [] []) [(0, 0x47#8), (1, 0x31#8)]).memRead (BitVec.ofNat 12 (0 + 0))) = none ∧
    (∀ j, 0 < j → j < 2 → hexval ((demo (regs [] [] []) [(0, 0x47#8), (1, 0x31#8)]).memRead (BitVec.ofNat 12 (0 + j))) ≠ none) ∧
    hexval ((demo (regs [] [] []) [(0, 0x47#8), (1, 0x47#8)]).memRead (BitVec.ofNat 12 (0 + 1))) = none :=
  ⟨by decide, by decide, by decide, by decide,
    fun j h1 h2 => by interval_cases j; decide, by decide⟩

/-- Each of the writes of 10_state.md R12 that is no register write happens. -/
theorem witness_writes :
    seen (exec (.cmpge .r1 .r2) (one [])) (·.ge) = some true ∧ (one []).ge = false ∧
    seen (exec (.getb .r1 0) (one [])) (·.bit) = some false ∧ (one []).bit = true ∧
    seen (exec (.sub .r3 .r1 .r2) (two [] [true])) (·.diag) = some true ∧ (two [] [true]).diag = false ∧
    seen (exec (.len .r1) (one [true])) (·.lenr) = some 1#32 ∧ (one [true]).lenr = 0#32 ∧
    seen (exec (.tohex .r1 0) (one [])) (·.txtlen) = some 1#32 ∧ (one []).txtlen = 0#32 := by decide

theorem witness_sources : (∀ r ∈ (Instr.mov .r2 .r1).sources, (regs [true] [true] [true]).get r = (one [true]).reg r) ∧
    exec (.mov .r2 .r1) (one [true]) = .next ((one [true]).setReg .r2 [true]) ∧
    exec (.mov .r2 .r1) { one [true] with regs := regs [true] [true] [true] } =
      .next ({ one [true] with regs := regs [true] [true] [true] }.setReg .r2 [true]) := ⟨by decide, rfl, rfl⟩

theorem witness_commit : Config.cap < (zeros 8193).length ∧ (zeros 8192).length ≤ Config.cap := by
  simp only [length_zeros]; decide

theorem one_length (n : Nat) : ((one (zeros n)).reg .r1).length = n := length_zeros n

theorem witness_seq_invariant : (one [true]).Inv ∧ 1 ≤ ((one [true]).reg .r1).length ∧ ((one []).reg .r1).length = 0 :=
  ⟨one_inv _ (by decide), by decide, by decide⟩

theorem witness_append : ((one (zeros 8191)).reg .r1).length < Config.cap ∧ ((one (zeros 8192)).reg .r1).length = Config.cap := by
  rw [one_length, one_length]; decide

theorem witness_cplw : 0 < 2 ^ 16 ∧ 0 ≤ Config.cap ∧ 8192 < 2 ^ 16 ∧ 8192 ≤ Config.cap ∧ 8193 < 2 ^ 16 ∧ Config.cap < 8193 := by
  decide

theorem witness_getb : 65535 < 2 ^ 16 ∧ ((one [false, true]).reg .r1)[1]? = some true ∧ ((one [false, true]).reg .r1).length ≤ 2 := by
  decide

theorem witness_bit_sequence_laws : [true, false].length = 2 := rfl

theorem witness_nibble : 15 < 16 := by decide

theorem witness_parse_window : 4095 < 2 ^ 12 ∧ 1 < 2 ^ 12 ∧ 4095 + 1 ≤ 4096 ∧ 2 < 2 ^ 12 ∧ 4096 < 4095 + 2 := by decide

theorem witness_parse_empty : (one []).AllHex 4095 0 ∧ 4095 + 0 ≤ 4096 ∧ bitlen ((one []).hexNumber 4095 0) ≤ Config.cap := by
  refine ⟨fun j hj => absurd hj (by omega), by decide, ?_⟩
  simp [State.hexNumber, bitlen]

theorem sixteen_pow (n : Nat) : 16 ^ n = 2 ^ (4 * n) := by rw [show (16 : ℕ) = 2 ^ 4 from rfl, ← Nat.pow_mul]

theorem hexNumber_digits_lt (n : Nat) : (digits n).hexNumber 0 n < 16 ^ n := by
  rw [hexNumber_eq_spelled]
  exact spelled_lt _ _ _

theorem witness_parse_fits : 0 + 2048 ≤ 4096 ∧ (digits 2048).AllHex 0 2048 ∧
    bitlen ((digits 2048).hexNumber 0 2048) ≤ Config.cap := by
  refine ⟨by decide, digits_allHex _ (by decide), (bitlen_le_iff _ _).2 ?_⟩
  exact lt_of_lt_of_eq (hexNumber_digits_lt 2048) (sixteen_pow 2048)

theorem witness_parse_overflows : 0 + 2049 ≤ 4096 ∧ (digits 2049).AllHex 0 2049 ∧
    Config.cap < bitlen ((digits 2049).hexNumber 0 2049) := by
  refine ⟨by decide, digits_allHex _ (by decide), ?_⟩
  by_contra h
  have h := (bitlen_le_iff _ _).1 (Nat.le_of_not_lt h)
  have h1 : (digits 2049).digitAt 0 = 1 := by
    rw [State.digitAt, digits, memRead_filled _ _ _ _ (by decide) (by decide)]; decide
  have h2 := Finset.single_le_sum (f := fun j => (digits 2049).digitAt (0 + 2049 - 1 - j) * 16 ^ j)
    (fun _ _ => Nat.zero_le _) (Finset.mem_range.2 (show 2048 < 2049 by decide))
  simp only [show 0 + 2049 - 1 - 2048 = 0 from rfl, h1, Nat.one_mul] at h2
  rw [sixteen_pow] at h2
  exact absurd (lt_of_le_of_lt h2 h) (lt_irrefl _)

theorem witness_parse_malformed : 4095 + 1 ≤ 4096 ∧
    hexval ((demo (regs [] [] []) [(4095, 0x47#8)]).memRead (BitVec.ofNat 12 (4095 + 0))) = none := by decide

theorem witness_tohex : 4095 < 2 ^ 12 ∧ 1 = max 1 ((((one []).reg .r1).length + 3) / 4) ∧ 4095 + 1 ≤ 4096 ∧
    2 = max 1 ((((one [true, true, true, true, true]).reg .r1).length + 3) / 4) ∧ 4096 < 4095 + 2 := by decide

/-- 2048 digits at 0, written again from 2048 on: the output window ends with the text memory. -/
theorem witness_round_trip : 0 + 2048 ≤ 4096 ∧ 1 ≤ 2048 ∧ 2048 < 2 ^ 12 ∧ (digits 2048).AllHex 0 2048 ∧
    bitlen ((digits 2048).hexNumber 0 2048) ≤ Config.cap ∧
    2048 + max 1 ((bitlen ((digits 2048).hexNumber 0 2048) + 3) / 4) ≤ 4096 := by
  have h := witness_parse_fits.2.2
  refine ⟨by decide, by decide, by decide, witness_parse_fits.2.1, h, ?_⟩
  rw [Config.cap] at h
  omega

theorem witness_round_trip_empty : 4095 < 2 ^ 12 := by decide

theorem witness_canonical_operands : isCanonical [] = true ∧ isCanonical [false, true] = true ∧
    val [false, true] ≠ 0 := by decide

/-- A sum of 8192 bits fits and one of 8193 bits does not. -/
theorem witness_add :
    max (max ((one (zeros 8192)).reg .r1).length ((one (zeros 8192)).reg .r2).length)
      (bitlen (val ((one (zeros 8192)).reg .r1) + val ((one (zeros 8192)).reg .r2))) ≤ Config.cap ∧
    Config.cap < max (max ((two (zeros 8191 ++ [true]) (zeros 8191 ++ [true])).reg .r1).length
        ((two (zeros 8191 ++ [true]) (zeros 8191 ++ [true])).reg .r2).length)
      (bitlen (val ((two (zeros 8191 ++ [true]) (zeros 8191 ++ [true])).reg .r1) +
        val ((two (zeros 8191 ++ [true]) (zeros 8191 ++ [true])).reg .r2))) := by
  have ha : ∀ a b : Bits, (two a b).reg .r1 = a := fun _ _ => rfl
  have hb : ∀ a b : Bits, (two a b).reg .r2 = b := fun _ _ => rfl
  have key : ∀ n, bitlen (val (zeros n ++ [true]) + val (zeros n ++ [true])) = n + 1 + 1 := fun n => by
    have h : val (zeros n ++ [true]) + val (zeros n ++ [true]) = 2 ^ (n + 1) := by
      simp [val_append, Nat.pow_succ, Nat.mul_two]
    rw [h, bitlen_eq le_rfl (Nat.pow_lt_pow_right (by decide) (by omega))]
  simp only [one, ha, hb, length_zeros, val_zeros, List.length_nil, val_nil, key]
  exact ⟨by decide, lt_of_lt_of_le (by decide) (le_max_right _ _)⟩

theorem witness_negw : 8192 < 2 ^ 16 ∧ 1 = val ((one [true]).reg .r1) % 2 ^ 8192 ∧ 0 = val ((one []).reg .r1) % 2 ^ 8192 ∧
    8192 ≤ Config.cap ∧ Config.cap < 8192 + 1 := by
  have h1 : val ((one [true]).reg .r1) = 1 := rfl
  have h0 : val ((one []).reg .r1) = 0 := rfl
  have key : ∀ n, n ≠ 0 → 1 = 1 % 2 ^ n := fun n hn => (Nat.mod_eq_of_lt (Nat.one_lt_two_pow hn)).symm
  rw [h1, h0]
  exact ⟨by decide, key 8192 (by decide), (Nat.zero_mod _).symm, by decide, by decide⟩

theorem witness_sub_supported : (two [true] [true]).Inv ∧
    ((two [true] [true]).reg .r2).length ≤ ((two [true] [true]).reg .r1).length ∧
    val ((two [true] [true]).reg .r2) ≤ val ((two [true] [true]).reg .r1) ∧
    val ((two [false] [true]).reg .r1) < val ((two [false] [true]).reg .r2) :=
  ⟨two_inv _ _ (by decide) (by decide), by decide, by decide, by decide⟩

theorem witness_sub_unsupported : ((two [true] [false, true]).reg .r1).length < ((two [true] [false, true]).reg .r2).length ∧
    isCanonical ((two [true] [false, true]).reg .r1) = true ∧ isCanonical ((two [true] [false, true]).reg .r2) = true := by
  decide

theorem witness_add_undoes_sub : (two [true] [true]).Inv ∧ Reg.r3 ≠ Reg.r2 ∧
    ((two [true] [true]).reg .r2).length ≤ ((two [true] [true]).reg .r1).length ∧
    val ((two [true] [true]).reg .r2) ≤ val ((two [true] [true]).reg .r1) ∧
    isCanonical ((two [true] [true]).reg .r1) = true ∧ isCanonical ((two [true] [true]).reg .r2) = true ∧
    [true].length ≤ [false].length ∧ val [false] < val [true] ∧ ([] : Bits).length < [true].length :=
  ⟨two_inv _ _ (by decide) (by decide), by decide, by decide, by decide, by decide, by decide, by decide, by decide, by decide⟩

theorem witness_multiplier : (([false], [false]) : Bits × Bits) = (if [false].length < [false].length then ([false], [false]) else ([false], [false])) ∧
    val [false] = 0 ∧ (([true, true], [true]) : Bits × Bits) =
      (if [true].length < [true, true].length then ([true, true], [true]) else ([true], [true, true])) ∧ val [true] ≠ 0 := by
  decide

theorem mul_one_bit (n : Nat) : (mul (zeros n ++ [true]) [false, true]).length = n + 2 := by
  have h : mul (zeros n ++ [true]) [false, true] =
      if (zeros n ++ [true]).length < 2 then mulFrom [false, true] (zeros n ++ [true]) 0 []
      else add [] (lsl (zeros n ++ [true]) 1) := rfl
  by_cases hn : n = 0
  · subst hn; decide
  · rw [h, if_neg (by simp; omega), length_add]
    have hv : val ([] : Bits) + val (lsl (zeros n ++ [true]) 1) = 2 ^ (n + 1) := by
      simp [val_append, Nat.pow_succ, Nat.mul_comm]
    rw [hv, bitlen_eq (l := n + 1) le_rfl (Nat.pow_lt_pow_right (by decide) (by omega))]
    simp

theorem witness_mul : (mul ((two (zeros 8190 ++ [true]) [false, true]).reg .r1) ((two (zeros 8190 ++ [true]) [false, true]).reg .r2)).length ≤ Config.cap ∧
    Config.cap < (mul ((two (zeros 8191 ++ [true]) [false, true]).reg .r1) ((two (zeros 8191 ++ [true]) [false, true]).reg .r2)).length ∧
    ((one (zeros 4096)).reg .r1).length ≤ Config.maxw ∧ ((one (zeros 4096)).reg .r2).length ≤ Config.maxw := by
  have ha : ∀ a b : Bits, (two a b).reg .r1 = a := fun _ _ => rfl
  have hb : ∀ a b : Bits, (two a b).reg .r2 = b := fun _ _ => rfl
  rw [one_length, ha, hb, ha, hb, mul_one_bit, mul_one_bit]
  decide

theorem witness_multiplier_laws : isCanonical [true] = true ∧ 1 ≤ [true].length := by decide

theorem witness_divider : isCanonical [true, true] = true ∧ val [true, true] ≠ 0 ∧
    val [true, true, false, false] ≠ 0 ∧ (div [true, true, false, true] [true, true, false, false]).2 = true := by decide

theorem witness_clrdiag : faulted.fault = true := rfl

theorem witness_div : (two [true] [true, false]).Inv ∧ val ((two [true] [true, false]).reg .r2) ≠ 0 ∧
    val ((two [] [false]).reg .r2) = 0 ∧ val ((one []).reg .r2) = 0 :=
  ⟨two_inv _ _ (by decide) (by decide), by decide, by decide, by decide⟩

theorem witness_lsl : 4095 < 2 ^ 16 ∧ 4095 < Config.maxw ∧ ((one (zeros 4097)).reg .r1).length + 4095 ≤ Config.cap ∧
    Config.cap < ((one (zeros 4098)).reg .r1).length + 4095 ∧ 4096 < 2 ^ 16 ∧ Config.maxw ≤ 4096 ∧ Config.maxw ≤ 65535 := by
  rw [one_length, one_length]; decide

theorem witness_lsr : (one [true]).Inv ∧ 4095 < 2 ^ 16 ∧ 4095 < Config.maxw ∧ ((one [true]).reg .r1).length ≤ 4095 ∧
    Config.maxw ≤ 4096 := ⟨one_inv _ (by decide), by decide, by decide, by decide, by decide⟩

theorem witness_shift_laws : isCanonical [true] = true ∧ ([true] : Bits) ≠ [] ∧ 0 < 1 := by decide

end Sys2Proof.Tests
end

section
/-! The commit rule (10_state.md R13), settled from the two branches of `State.commit` and the frames of a register write
and of a fault. -/

namespace Sys2Proof.Machine

/-- A commit longer than CAP takes a fault and changes nothing else (10_state.md R13, 60_exceptions.md R185). -/
theorem OnlyFault.commit (s : State) (rd : Reg) {v : Bits} (h : Config.cap < v.length) :
    OnlyFault .capacity (BitVec.ofNat 32 v.length) s (s.commit rd v) := by
  rw [s.commit_overflows rd h]
  exact OnlyFault.raise s _ _

/-- A commit that fits changes its destination only (10_state.md R13). -/
theorem OnlyReg.commit (s : State) (rd : Reg) {v : Bits} (h : v.length ≤ Config.cap) :
    OnlyReg rd s (s.commit rd v) := by
  rw [s.commit_fits rd h]
  exact OnlyReg.setReg s rd v

theorem State.commit_reg_self (s : State) (rd : Reg) {v : Bits} (h : v.length ≤ Config.cap) :
    (s.commit rd v).reg rd = v := by
  rw [s.commit_fits rd h]
  exact s.setReg_reg_self rd v

end Sys2Proof.Machine

open Sys2Proof Sys2Proof.Machine

/-- Settles O23: the commit rule's two branches, each with its frame. -/
theorem commitWritesOneRegisterOrRaisesCapacity : Obligations.CommitWritesOneRegisterOrRaisesCapacity := by
  intro s rd v
  constructor
  · intro hover
    exact ⟨s.commit_overflows rd hover, OnlyFault.commit s rd hover⟩
  · intro hfits
    exact ⟨s.commit_reg_self rd hfits, OnlyReg.commit s rd hfits⟩

end

section
/-! The host's write of a text cell (20_memory.md R43, R49), settled from the law of a read after a write and the frame of
the write. -/

namespace Sys2Proof.Machine

theorem hostTransact_txtWrite (s : State) (a : TxtAddr) (v : Byte) :
    hostTransact (.txtWrite a v) s = .next (s.memWrite a v) := rfl

/-- A write of a text cell leaves everything but TXT as it was (20_memory.md R43). -/
theorem State.memWrite_frame (s : State) (a : TxtAddr) (v : Byte) :
    SameRegs s (s.memWrite a v) ∧ SameFault s (s.memWrite a v) ∧ SameFlags s (s.memWrite a v) ∧
      SameCsrs s (s.memWrite a v) ∧ SameHost s (s.memWrite a v) := by
  refine ⟨s.memWrite_reg a v, ?_, ?_, ?_, ?_⟩
  · simp [SameFault]
  · simp [SameFlags]
  · simp [SameCsrs]
  · simp [SameHost]

end Sys2Proof.Machine

open Sys2Proof Sys2Proof.Machine

/-- Settles O11: the transaction is one `memWrite`, whose cell reads back while the others and the rest of the state stay. -/
theorem hostTextWriteChangesOneCell : Obligations.HostTextWriteChangesOneCell := by
  intro s a v
  have hothers : ∀ p, p ≠ a → (s.memWrite a v).memRead p = s.memRead p := fun _ hp => s.memWrite_memRead_of_ne hp v
  exact ⟨s.memWrite a v, hostTransact_txtWrite s a v, s.memWrite_memRead_self a v, hothers, s.memWrite_frame a v⟩

end

section
/-! Which words are commands and which are illegal (30_encoding.md R65, R66): a word that matches a row of the table decodes
to the command of that row, so an illegal word is one that no row matches. -/

namespace Sys2Proof

theorem Opcode.num_injective : Function.Injective Opcode.num := by
  intro op op' h
  have hsome := congrArg Opcode.ofNum h
  simpa using hsome

theorem Opcode.num_range (op : Opcode) : 1 ≤ op.num ∧ op.num < 0x16 := by cases op <;> decide

/-- The reserved opcodes are the numbers that no row has (30_encoding.md R66 (a)). -/
theorem Opcode.ofNum_eq_none_iff (n : Nat) : Opcode.ofNum n = none ↔ n = 0 ∨ 0x16 ≤ n := by
  constructor
  · intro hnone
    by_contra! hassigned
    obtain ⟨hne, hlt⟩ := hassigned
    have hpos : 1 ≤ n := Nat.pos_of_ne_zero hne
    interval_cases n <;> cases hnone
  · intro hreserved
    cases hop : Opcode.ofNum n with
    | none => rfl
    | some op =>
      have hnum := Opcode.num_of_ofNum hop
      have hrange := op.num_range
      omega

/-- A word has the opcode of every row that matches it (30_encoding.md R64). -/
theorem Opcode.opField_of_match {op : Opcode} {w : Word} (h : w &&& op.mask = op.matchWord) : opField w = op.num :=
  ((op.and_mask_iff w).1 h).1

/-- At most one row matches a word (30_encoding.md R65). -/
theorem Opcode.match_unique {op op' : Opcode} {w : Word} (h : w &&& op.mask = op.matchWord)
    (h' : w &&& op'.mask = op'.matchWord) : op = op' :=
  Opcode.num_injective ((Opcode.opField_of_match h).symm.trans (Opcode.opField_of_match h'))

theorem decode_of_match {op : Opcode} {w : Word} (h : w &&& op.mask = op.matchWord) :
    decode w = .command (op.instr w) := by
  have hrow : Opcode.ofNum (opField w) = some op := by rw [Opcode.opField_of_match h, Opcode.ofNum_num]
  exact (decode_command_iff w _).2 ⟨op, hrow, h, rfl⟩

/-- Illegal is the one alternative to a command. -/
theorem decode_illegal_iff_no_command (w : Word) :
    (∃ why, decode w = .illegal why) ↔ ∀ i, decode w ≠ .command i := by
  cases decode w <;> simp

/-- The illegal words are those that no row matches (30_encoding.md R65). -/
theorem decode_illegal_iff_no_match (w : Word) :
    (∃ why, decode w = .illegal why) ↔ ∀ op : Opcode, w &&& op.mask ≠ op.matchWord := by
  rw [decode_illegal_iff_no_command]
  constructor
  · exact fun hnone op hmatch => hnone _ (decode_of_match hmatch)
  · intro hnone i hi
    obtain ⟨op, -, hmatch, -⟩ := (decode_command_iff w i).1 hi
    exact hnone op hmatch

/-- A row fails to match a word of its opcode exactly when a must-be-zero bit is 1 (30_encoding.md R62, R66 (b)). -/
theorem Opcode.no_match_iff {op : Opcode} {w : Word} (h : opField w = op.num) :
    w &&& op.mask ≠ op.matchWord ↔ ¬ op.MbzClear w := by
  rw [Ne, op.and_mask_iff w]
  simp [h]

/-- The illegal words by their fields (30_encoding.md R66 (a) and (b)). -/
theorem decode_illegal_iff_fields (w : Word) :
    (∃ why, decode w = .illegal why) ↔
      (opField w = 0 ∨ 0x16 ≤ opField w) ∨ ∃ op : Opcode, opField w = op.num ∧ ¬ op.MbzClear w := by
  rw [decode_illegal_iff_no_match, ← Opcode.ofNum_eq_none_iff]
  constructor
  · intro hnone
    cases hop : Opcode.ofNum (opField w) with
    | none => exact .inl rfl
    | some op =>
      have hfield : opField w = op.num := (Opcode.num_of_ofNum hop).symm
      exact .inr ⟨op, hfield, (Opcode.no_match_iff hfield).1 (hnone op)⟩
  · rintro (hreserved | ⟨op, hfield, hmbz⟩) op' hmatch
    · rw [Opcode.opField_of_match hmatch, Opcode.ofNum_num] at hreserved
      cases hreserved
    · obtain rfl : op = op' := Opcode.num_injective (hfield.symm.trans (Opcode.opField_of_match hmatch))
      exact (Opcode.no_match_iff hfield).2 hmbz hmatch

namespace Machine

/-- An illegal word on a block that is not faulted raises ILLEGAL_CMD with the word (30_encoding.md R66). -/
theorem hostCmd_illegal {w : Word} {s : State} (hf : s.fault = false) (h : ∃ why, decode w = .illegal why) :
    hostCmd w s = .next (s.raise .illegalCmd w) := by
  obtain ⟨why, hwhy⟩ := h
  simp [hostCmd, hf, hwhy]

end Machine
end Sys2Proof

open Sys2Proof Sys2Proof.Machine

/-- Settles O3: a decoded word has the one row that matches it, and a word without a command matches no row. -/
theorem everyWordIsOneCommandOrIllegal : Obligations.EveryWordIsOneCommandOrIllegal := by
  intro w
  cases hdecode : decode w with
  | command i =>
    obtain ⟨op, -, hmatch, rfl⟩ := (decode_command_iff w i).1 hdecode
    refine .inl ⟨op.instr w, rfl, ?_⟩
    rw [op.instr_opcode w]
    exact ⟨hmatch, Opcode.opField_of_match hmatch, fun _ hother => Opcode.match_unique hother hmatch, rfl⟩
  | illegal why => exact .inr ⟨⟨why, rfl⟩, (decode_illegal_iff_no_match w).1 ⟨why, hdecode⟩⟩

/-- Settles O4: no row matches a word exactly when R66 (a) or (b) holds, and HostCmd turns such a word into the fault. -/
theorem illegalWordsAreReservedOpcodesOrMustBeZeroBits :
    Obligations.IllegalWordsAreReservedOpcodesOrMustBeZeroBits := by
  have hzeros : opField 0x00000000#32 = 0 := by decide
  have hones : 0x16 ≤ opField 0xFFFFFFFF#32 := by decide
  exact ⟨decode_illegal_iff_fields, (decode_illegal_iff_fields _).2 (.inl (.inl hzeros)),
    (decode_illegal_iff_fields _).2 (.inl (.inr hones)), fun _ _ => hostCmd_illegal⟩

end

section
/-! What the bit-sequence operations of 40_bitseq.md do to lengths, bits and values, beside Laws/BitSeq.lean, and the laws of
R92, settled from them. -/

namespace Sys2Proof.Machine

/-- A bit appended at the high end weighs `2^len` (40_bitseq.md R84). -/
theorem val_append_bit (s : Bits) (b : Bool) : val (s ++ [b]) = val s + b.toNat * 2 ^ s.length := by
  simp [val_append, Nat.mul_comm]

/-- A bit inserted at the low end doubles the weight of the others (40_bitseq.md R85). -/
theorem val_bit_append (b : Bool) (s : Bits) : val ([b] ++ s) = 2 * val s + b.toNat := by
  rw [List.singleton_append, val_cons, Nat.add_comm]

@[simp] theorem length_removeHighest (s : Bits) : (removeHighest s).length = s.length - 1 := by simp [removeHighest]

theorem length_removeHighest_le (s : Bits) : (removeHighest s).length ≤ s.length := by simp

theorem val_removeHighest (s : Bits) : val (removeHighest s) = val s % 2 ^ (s.length - 1) := val_take s _

@[simp] theorem removeHighest_append_bit (s : Bits) (b : Bool) : removeHighest (s ++ [b]) = s := by
  simp [removeHighest]

/-- The two cases of R86: the empty sequence stays empty (decision D11). -/
theorem removeHighest_eq_ite (s : Bits) :
    removeHighest s = if s.length = 0 then [] else s.take (s.length - 1) := by
  cases s <;> simp [removeHighest]

theorem val_drop_one (s : Bits) : val (s.drop 1) = val s / 2 := val_drop s 1

/-- After a drop every remaining bit stands that many indexes lower (40_bitseq.md R87). -/
theorem bitAt_drop (s : Bits) (n i : Nat) : bitAt (s.drop n) i = bitAt s (i + n) := by
  simp [bitAt, List.getD_eq_getElem?_getD, Nat.add_comm]

theorem bitAt_of_getElem? {s : Bits} {i : Nat} {b : Bool} (h : s[i]? = some b) : bitAt s i = b := by
  simp [bitAt, List.getD_eq_getElem?_getD, h]

/-- A read beyond the length yields 0 (40_bitseq.md R80). -/
theorem bitAt_of_length_le {s : Bits} {i : Nat} (h : s.length ≤ i) : bitAt s i = false :=
  List.getD_eq_default s false h

/-- STRIP removes most-significant zeros and nothing else (40_bitseq.md R88). -/
theorem eq_strip_append_zeros (s : Bits) : s = strip s ++ zeros (s.length - (strip s).length) := by
  have hle := length_strip_le s
  refine eq_of_val_eq ?_ ?_
  · rw [List.length_append, length_zeros]
    omega
  · rw [val_append, val_zeros, val_strip, Nat.mul_zero, Nat.add_zero]

theorem isCanonical_strip (s : Bits) : isCanonical (strip s) = true := by
  rw [strip_eq_canon]
  exact isCanonical_canon _

@[simp] theorem strip_strip (s : Bits) : strip (strip s) = strip s := by simp [strip_eq_canon]

/-- The value of a complement, solved for it (40_bitseq.md R89). -/
theorem val_cplw_eq (s : Bits) (n : Nat) : val (cplw s n) = 2 ^ n - 1 - val s % 2 ^ n := by
  have hsum := val_cplw s n
  omega

/-- Complementing twice leaves the value's n low-order bits, in n bits (40_bitseq.md R92). -/
theorem cplw_cplw (s : Bits) (n : Nat) : cplw (cplw s n) n = enc (val s % 2 ^ n) n := by
  refine eq_of_val_eq (by simp) ?_
  have hfirst := val_cplw s n
  have hsecond := val_cplw (cplw s n) n
  have hfits : val (cplw s n) % 2 ^ n = val (cplw s n) := Nat.mod_eq_of_lt (by omega)
  rw [val_enc, Nat.mod_mod]
  omega

theorem cplw_cplw_self (s : Bits) : cplw (cplw s s.length) s.length = s := by
  rw [cplw_cplw, Nat.mod_eq_of_lt (val_lt_two_pow s), enc_val]

end Sys2Proof.Machine

open Sys2Proof Sys2Proof.Machine

/-- Settles O34: each law is a law of one operation, and the second complement undoes the first in the width. -/
theorem bitSequenceLawsHold : Obligations.BitSequenceLawsHold := by
  intro s b n
  have htwice : s.length = n → cplw (cplw s n) n = s := by
    rintro rfl
    exact cplw_cplw_self s
  exact ⟨removeHighest_append_bit s b, rfl, val_bit_append b s, val_drop_one s, strip_strip s, val_strip s,
    cplw_cplw s n, htwice, length_cplw s n⟩

end

section
/-! The commands of 40_bitseq.md: their words by format, what a command that commits its result can answer, and the frames
of the two that write a flag or a CSR instead. -/

namespace Sys2Proof

/-! The words of the formats of this family as the sums of their fields (30_encoding.md R62): Z has `rd`, R2 has `rd` and
`ra`, RI and B have an immediate or `b` at bit 0 besides, and A and AI have `ra` without `rd`. -/

theorem assemble_rd (op rd : Nat) : assemble op rd 0 0 0 = BitVec.ofNat 32 (op * 2 ^ 27 + rd * 2 ^ 24) := by
  simp [assemble]

theorem assemble_rd_ra (op rd ra : Nat) :
    assemble op rd ra 0 0 = BitVec.ofNat 32 (op * 2 ^ 27 + rd * 2 ^ 24 + ra * 2 ^ 21) := by
  simp [assemble]

theorem assemble_rd_ra_low (op rd ra low : Nat) :
    assemble op rd ra 0 low = BitVec.ofNat 32 (op * 2 ^ 27 + rd * 2 ^ 24 + ra * 2 ^ 21 + low) := by
  simp [assemble]

theorem assemble_ra (op ra : Nat) : assemble op 0 ra 0 0 = BitVec.ofNat 32 (op * 2 ^ 27 + ra * 2 ^ 21) := by
  simp [assemble]

theorem assemble_ra_low (op ra low : Nat) :
    assemble op 0 ra 0 low = BitVec.ofNat 32 (op * 2 ^ 27 + ra * 2 ^ 21 + low) := by
  simp [assemble]

namespace Machine

/-- A command whose meaning is the commit of a result that fits completes with it, and changes its destination only
(10_state.md R13). -/
theorem exec_of_commit_fits {i : Instr} {s : State} {rd : Reg} {v : Bits} (h : exec i s = .next (s.commit rd v))
    (hv : v.length ≤ Config.cap) : ∃ t, exec i s = .next t ∧ t.reg rd = v ∧ OnlyReg rd s t :=
  ⟨s.commit rd v, h, s.commit_reg_self rd hv, OnlyReg.commit s rd hv⟩

/-- A command whose meaning is the commit of a result longer than CAP raises CAPACITY with that length (10_state.md R13,
60_exceptions.md R183). -/
theorem exec_of_commit_overflows {i : Instr} {s : State} {rd : Reg} {v : Bits} {n : Nat}
    (h : exec i s = .next (s.commit rd v)) (hlen : v.length = n) (hn : Config.cap < n) :
    exec i s = .next (s.raise .capacity (BitVec.ofNat 32 n)) := by
  subst hlen
  rw [h, s.commit_overflows rd hn]

/-- A command whose meaning is the commit of a result no longer than a source completes in every state that meets the
invariant: what came from a register fits a register. -/
theorem exec_of_commit_le_source {i : Instr} {s : State} {rd ra : Reg} {v : Bits} (hinv : s.Inv)
    (h : exec i s = .next (s.commit rd v)) (hle : v.length ≤ (s.reg ra).length) :
    ∃ t, exec i s = .next t ∧ t.reg rd = v ∧ OnlyReg rd s t :=
  exec_of_commit_fits h (hle.trans (hinv.regsFit ra))

/-- A write of BIT leaves everything else as it was (10_state.md R19). -/
theorem State.setBit_frame (s : State) (b : Bool) :
    SameRegs s (s.setBit b) ∧ SameFault s (s.setBit b) ∧ (s.setBit b).diag = s.diag ∧ (s.setBit b).ge = s.ge ∧
      SameCsrs s (s.setBit b) ∧ SameTxt s (s.setBit b) ∧ SameHost s (s.setBit b) := by
  refine ⟨s.setBit_reg b, ?_, s.setBit_diag b, s.setBit_ge b, ?_, s.setBit_memRead b, ?_⟩
  · simp [SameFault]
  · simp [SameCsrs]
  · simp [SameHost]

/-- A write of LENR leaves everything else as it was (10_state.md R23). -/
theorem State.setLenr_frame (s : State) (v : Word) :
    SameRegs s (s.setLenr v) ∧ SameFault s (s.setLenr v) ∧ SameFlags s (s.setLenr v) ∧
      (s.setLenr v).txtlen = s.txtlen ∧ (s.setLenr v).sign = s.sign ∧ SameTxt s (s.setLenr v) ∧
      SameHost s (s.setLenr v) := by
  refine ⟨s.setLenr_reg v, ?_, ?_, s.setLenr_txtlen v, s.setLenr_sign v, s.setLenr_memRead v, ?_⟩
  · simp [SameFault]
  · simp [SameFlags]
  · simp [SameHost]

/-- The sign bits are no part of a register, so a command that changes one register keeps them (10_state.md R14). -/
theorem OnlyReg.sign {rd : Reg} {s t : State} (h : OnlyReg rd s t) : t.sign = s.sign := by
  obtain ⟨-, -, -, ⟨-, -, hsign⟩, -, -⟩ := h
  exact hsign

/-! What each command of the family commits or writes (40_bitseq.md R82 to R91). -/

variable (s : State) (rd ra : Reg)

theorem exec_clr : exec (.clr rd) s = .next (s.commit rd []) := rfl
theorem exec_mov : exec (.mov rd ra) s = .next (s.commit rd (s.reg ra)) := rfl
theorem exec_apph (b : Bool) : exec (.apph rd ra b) s = .next (s.commit rd (s.reg ra ++ [b])) := rfl
theorem exec_insl (b : Bool) : exec (.insl rd ra b) s = .next (s.commit rd ([b] ++ s.reg ra)) := rfl
theorem exec_remh : exec (.remh rd ra) s = .next (s.commit rd (removeHighest (s.reg ra))) := rfl
theorem exec_reml : exec (.reml rd ra) s = .next (s.commit rd ((s.reg ra).drop 1)) := rfl
theorem exec_strip : exec (.strip rd ra) s = .next (s.commit rd (strip (s.reg ra))) := rfl
theorem exec_cplw (size : Nat) : exec (.cplw rd ra size) s = .next (s.commit rd (cplw (s.reg ra) size)) := rfl
theorem exec_getb (idx : Nat) : exec (.getb ra idx) s = .next (s.setBit (bitAt (s.reg ra) idx)) := rfl
theorem exec_len : exec (.len ra) s = .next (s.setLenr (BitVec.ofNat 32 (s.reg ra).length)) := rfl

end Machine
end Sys2Proof

open Sys2Proof Sys2Proof.Machine

/-- Settles O24: the empty sequence always fits. -/
theorem clrEmptiesTheRegister : Obligations.ClrEmptiesTheRegister := by
  intro rd s
  exact ⟨assemble_rd 0x01 rd.num, exec_of_commit_fits (exec_clr s rd) (Nat.zero_le _)⟩

/-- Settles O25: a register's content fits a register, and the sign bits keep the 0 of the invariant. -/
theorem movCopiesTheSequence : Obligations.MovCopiesTheSequence := by
  intro rd ra s hinv
  obtain ⟨t, hexec, hreg, hframe⟩ := exec_of_commit_le_source hinv (exec_mov s rd ra) le_rfl
  exact ⟨assemble_rd_ra 0x02 rd.num ra.num, t, hexec, hreg, hframe, hframe.sign.trans hinv.signZero⟩

/-- Settles O26: the appended bit makes the result one longer than the source, so it fits exactly below CAP. -/
theorem apphAppendsAtTheHighEnd : Obligations.ApphAppendsAtTheHighEnd := by
  intro rd ra b s
  have hlen : (s.reg ra ++ [b]).length = (s.reg ra).length + 1 := List.length_append
  refine ⟨assemble_rd_ra_low 0x03 rd.num ra.num b.toNat, ?_, ?_⟩
  · intro hbelow
    obtain ⟨t, hexec, hreg, hframe⟩ := exec_of_commit_fits (exec_apph s rd ra b) (by omega)
    refine ⟨t, hexec, hreg, ?_, ?_, hframe⟩
    · rw [hreg, hlen]
    · rw [hreg, val_append_bit]
  · intro hfull
    exact exec_of_commit_overflows (exec_apph s rd ra b) (by rw [hlen, hfull]) (Nat.lt_succ_self _)

/-- Settles O27: the inserted bit makes the result one longer than the source, so it fits exactly below CAP. -/
theorem inslInsertsAtTheLowEnd : Obligations.InslInsertsAtTheLowEnd := by
  intro rd ra b s
  have hlen : ([b] ++ s.reg ra).length = (s.reg ra).length + 1 := rfl
  refine ⟨assemble_rd_ra_low 0x04 rd.num ra.num b.toNat, ?_, ?_⟩
  · intro hbelow
    obtain ⟨t, hexec, hreg, hframe⟩ := exec_of_commit_fits (exec_insl s rd ra b) (by omega)
    refine ⟨t, hexec, hreg, ?_, ?_, hframe⟩
    · rw [hreg, hlen]
    · rw [hreg, val_bit_append]
  · intro hfull
    exact exec_of_commit_overflows (exec_insl s rd ra b) (by rw [hlen, hfull]) (Nat.lt_succ_self _)

/-- Settles O28: without its highest bit a source still fits, and dropping that bit is the remainder by its weight. -/
theorem remhRemovesTheHighestBit : Obligations.RemhRemovesTheHighestBit := by
  intro rd ra s hinv
  have hle := length_removeHighest_le (s.reg ra)
  obtain ⟨t, hexec, hreg, hframe⟩ := exec_of_commit_le_source hinv (exec_remh s rd ra) hle
  refine ⟨assemble_rd_ra 0x05 rd.num ra.num, t, hexec, ?_, ?_, fun _ => ?_, hframe⟩
  · rw [hreg, removeHighest_eq_ite]
  · rw [hreg, length_removeHighest, Nat.max_zero]
  · rw [hreg, val_removeHighest]

/-- Settles O29: without its lowest bit a source still fits, and dropping that bit is the division by 2. -/
theorem remlRemovesTheLowestBit : Obligations.RemlRemovesTheLowestBit := by
  intro rd ra s hinv
  have hle : ((s.reg ra).drop 1).length ≤ (s.reg ra).length := by simp
  obtain ⟨t, hexec, hreg, hframe⟩ := exec_of_commit_le_source hinv (exec_reml s rd ra) hle
  refine ⟨assemble_rd_ra 0x06 rd.num ra.num, t, hexec, hreg, fun i => ?_, ?_, ?_, hframe⟩
  · rw [hreg, bitAt_drop]
  · rw [hreg, List.length_drop, Nat.max_zero]
  · rw [hreg, val_drop_one]

/-- Settles O30: the result is the canonical sequence of the source's value, so no longer than the source, which fits. -/
theorem stripGivesTheCanonicalSequence : Obligations.StripGivesTheCanonicalSequence := by
  intro rd ra s hinv
  have hle := length_strip_le (s.reg ra)
  obtain ⟨t, hexec, hreg, hframe⟩ := exec_of_commit_le_source hinv (exec_strip s rd ra) hle
  refine ⟨assemble_rd_ra 0x07 rd.num ra.num, t, hexec, ?_⟩
  rw [hreg]
  exact ⟨strip_eq_canon _, ⟨_, eq_strip_append_zeros _⟩, length_strip _, val_strip _, isCanonical_strip _, hframe⟩

/-- Settles O31: the result has exactly `size` bits, so it fits exactly when `size` is at most CAP. -/
theorem cplwComplementsInTheWidth : Obligations.CplwComplementsInTheWidth := by
  intro rd ra size s _
  have hlen := length_cplw (s.reg ra) size
  refine ⟨assemble_rd_ra_low 0x08 rd.num ra.num size, ?_, ?_⟩
  · intro hsize
    obtain ⟨t, hexec, hreg, hframe⟩ := exec_of_commit_fits (exec_cplw s rd ra size) (by omega)
    refine ⟨t, hexec, ?_⟩
    rw [hreg]
    exact ⟨hlen, bitAt_cplw (s.reg ra) size, val_cplw_eq (s.reg ra) size, hframe⟩
  · exact exec_of_commit_overflows (exec_cplw s rd ra size) hlen

/-- Settles O32: BIT takes the bit at the index, which reads 0 beyond the length. -/
theorem getbReadsOneBit : Obligations.GetbReadsOneBit := by
  intro ra idx s _
  exact ⟨assemble_ra_low 0x09 ra.num idx, _, exec_getb s ra idx, fun _ => bitAt_of_getElem?, bitAt_of_length_le,
    s.setBit_frame _⟩

/-- Settles O33: a length that fits a register is read back whole from the 32 bits of LENR. -/
theorem lenMeasuresTheRawLength : Obligations.LenMeasuresTheRawLength := by
  intro ra s hinv
  exact ⟨assemble_ra 0x0A ra.num, _, exec_len s ra, toNat_ofNat_of_le_cap (hinv.regsFit ra), s.setLenr_frame _⟩

end

section
/-! The two ROMs of the hexadecimal codec (41_parse.md R101, 46_tohex.md R161), settled from the inverse of `hexval`. -/

namespace Sys2Proof.Machine

/-- Which bytes have the nibble value `n`: one digit below 10, an upper-case and a lower-case letter from 10 on
(41_parse.md R101). -/
theorem hexval_eq_some_iff (c : Byte) (n : Nat) :
    hexval c = some n ↔ (n ≤ 9 ∧ c = BitVec.ofNat 8 (0x30 + n)) ∨
      (10 ≤ n ∧ n ≤ 15 ∧ (c = BitVec.ofNat 8 (0x37 + n) ∨ c = BitVec.ofNat 8 (0x57 + n))) := by
  simp only [← BitVec.toNat_inj, BitVec.toNat_ofNat]
  have hc := c.isLt
  unfold hexval
  split_ifs with hdigit hupper hlower
  · simp only [Option.some.injEq]
    omega
  · simp only [Option.some.injEq]
    omega
  · simp only [Option.some.injEq]
    omega
  · simp only [false_iff]
    omega

/-- The output ROM is inverted by the input ROM (46_tohex.md R161). -/
theorem hexval_hexchar {g : Nat} (h : g < 16) : hexval (hexchar g) = some g := by
  rw [hexval_eq_some_iff, hexchar]
  split_ifs with hdigit
  · exact .inl ⟨hdigit, rfl⟩
  · exact .inr ⟨by omega, by omega, .inl rfl⟩

end Sys2Proof.Machine

open Sys2Proof Sys2Proof.Machine

/-- Settles O35: the ranges of `hexval` list the rows of the input table, and each row lies in its range. -/
theorem nibbleTablesAreTheSpecTables : Obligations.NibbleTablesAreTheSpecTables := by
  refine ⟨fun c n => ⟨fun hval => ?_, fun hrow => ?_⟩, by decide, fun g => hexval_hexchar⟩
  · rcases (hexval_eq_some_iff c n).1 hval with ⟨hdigit, rfl⟩ | ⟨hlow, hhigh, rfl | rfl⟩
    · interval_cases n <;> decide
    · interval_cases n <;> decide
    · interval_cases n <;> decide
  · exact (by decide : ∀ row ∈ _, hexval (Prod.fst row) = some row.2) (c, n) hrow

end

section
/-! What PARSE does (41_parse.md R100): one equation per outcome of the window check and the scan, and what a string's number
says of its digits. -/

namespace Sys2Proof

/-- The word of format T with both addresses (30_encoding.md R62). -/
theorem assemble_rd_base_len (op rd base len : Nat) :
    assemble op rd 0 0 (base * 2 ^ 12 + len) = BitVec.ofNat 32 (op * 2 ^ 27 + rd * 2 ^ 24 + base * 2 ^ 12 + len) := by
  simp [assemble, Nat.add_assoc]

namespace Machine

theorem hexNumber_lt (s : State) (base k : Nat) : s.hexNumber base k < 16 ^ k := by
  rw [hexNumber_eq_spelled]
  exact spelled_lt s.txt base k

theorem bitlen_hexNumber_le (s : State) (base k : Nat) : bitlen (s.hexNumber base k) ≤ 4 * k := by
  rw [bitlen_le_iff, Nat.pow_mul]
  exact hexNumber_lt s base k

/-- The scan of a valid string: four bits per character, and the strip leaves the canonical sequence of its number
(41_parse.md R100). -/
theorem scanHex_of_allHex {s : State} {base len : Nat} (h : s.AllHex base len) :
    ∃ v, scanHex s.txt base len = .bits v ∧ v.length = 4 * len ∧ strip v = canon (s.hexNumber base len) := by
  obtain ⟨v, hscan, hlen, hval⟩ := scanHex_valid h
  exact ⟨v, hscan, hlen, by rw [strip_eq_canon, hval, hexNumber_eq_spelled]⟩

/-- PARSE of a window that runs past the end of TXT (20_memory.md R57). -/
theorem exec_parse_outside (s : State) (r : Reg) {base len : Nat} (h : Config.txtsz < base + len) :
    exec (.parse r base len) s = .next (s.raise .txtRange (BitVec.ofNat 32 (base + len))) := by
  have hwindow : ¬ windowOk base len = true := by
    rw [windowOk_iff]
    omega
  simp only [exec, execParse, if_neg hwindow]

/-- PARSE of a valid string commits the canonical sequence of its number (41_parse.md R100). -/
theorem exec_parse_valid (r : Reg) {s : State} {base len : Nat} (hwindow : base + len ≤ Config.txtsz)
    (h : s.AllHex base len) :
    exec (.parse r base len) s = .next (s.commit r (canon (s.hexNumber base len))) := by
  obtain ⟨v, hscan, -, hstrip⟩ := scanHex_of_allHex h
  simp only [exec, execParse, if_pos ((windowOk_iff _ _).2 hwindow), hscan, hstrip]

/-- PARSE of a window with an invalid byte names the one of highest address (41_parse.md R100, 60_exceptions.md R177). -/
theorem exec_parse_invalid (r : Reg) {s : State} {base len k : Nat} (hwindow : base + len ≤ Config.txtsz) (hk : k < len)
    (hbad : hexval (s.memRead (charAddr base k)) = none)
    (hok : ∀ j, k < j → j < len → hexval (s.memRead (charAddr base j)) ≠ none) :
    exec (.parse r base len) s = .next (s.raise .malformedInput (BitVec.ofNat 32 (base + k))) := by
  have haddr : base + k < Config.txtsz := by omega
  simp only [exec, execParse, if_pos ((windowOk_iff _ _).2 hwindow), scanHex_invalid hk hbad hok, setWidth_charAddr haddr]

end Machine
end Sys2Proof

open Sys2Proof Sys2Proof.Machine

/-- Settles O36: PARSE is the commit of the canonical number of a valid window, so it fits or raises CAPACITY by the number's
bit length; the other windows raise their fault. -/
theorem parseReadsTheHexadecimalNumber : Obligations.ParseReadsTheHexadecimalNumber := by
  intro r base len s _ _
  refine ⟨assemble_rd_base_len 0x0B r.num base len, exec_parse_outside s r,
    fun hhex => ⟨bitlen_hexNumber_le s base len, scanHex_of_allHex hhex⟩, ?_, ?_,
    fun hwindow k => exec_parse_invalid r hwindow⟩
  · intro hwindow hhex hfits
    obtain ⟨t, hexec, hreg, hframe⟩ :=
      exec_of_commit_fits (exec_parse_valid r hwindow hhex) ((length_canon _).trans_le hfits)
    refine ⟨t, hexec, hreg, ?_⟩
    rw [hreg]
    exact ⟨val_canon _, isCanonical_canon _, hframe⟩
  · intro hwindow hhex
    exact exec_of_commit_overflows (exec_parse_valid r hwindow hhex) (length_canon _)

end

section
/-! The round trip of the codec (41_parse.md R103): TOHEX writes the digits of the number that PARSE left in the register, and
the positional digits of a string's number are its characters from the first one that is not 0. -/

namespace Sys2Proof.Machine

/-- TOHEX whose output fits its window writes the `k` low digits of the value, the most significant one first
(46_tohex.md R160, R162). -/
theorem exec_tohex_fits (r : Reg) {s : State} {base k : Nat} (hcount : digitCount (s.reg r) = k)
    (hwindow : base + k ≤ Config.txtsz) :
    ∃ t, exec (.tohex r base) s = .next t ∧ t.txtlen.toNat = k ∧
      ∀ j < k, t.memRead (charAddr base j) = hexchar (val (s.reg r) / 16 ^ (k - 1 - j) % 16) := by
  refine ⟨(s.setTxt (storeDigits s.txt base (hexDigits k (s.reg r)))).setTxtlen (BitVec.ofNat 32 k), ?_, ?_, ?_⟩
  · simp only [exec, execTohex, hcount, if_pos ((windowOk_iff _ _).2 hwindow)]
  · have hcap : k ≤ Config.cap := (Nat.le_of_add_left_le hwindow).trans (by decide)
    exact toNat_ofNat_of_le_cap hcap
  · intro j hj
    have hread := read_storeDigits s.txt base (hexDigits k (s.reg r)) (by simpa using hwindow) (k - 1 - j)
      (by simp only [length_hexDigits]; omega)
    rw [length_hexDigits, getElem?_hexDigits k _ _ (by omega), show k - 1 - (k - 1 - j) = j by omega] at hread
    simpa using hread

/-- PARSE then TOHEX writes the positional digits of the string's number (41_parse.md R103). -/
theorem exec_parse_then_tohex (r : Reg) {s : State} {base len out k : Nat} (hwindow : base + len ≤ Config.txtsz)
    (hhex : s.AllHex base len) (hfits : bitlen (s.hexNumber base len) ≤ Config.cap)
    (hcount : max 1 ((bitlen (s.hexNumber base len) + 3) / 4) = k) (hout : out + k ≤ Config.txtsz) :
    ∃ t u, exec (.parse r base len) s = .next t ∧ exec (.tohex r out) t = .next u ∧ u.txtlen.toNat = k ∧
      ∀ j < k, u.memRead (charAddr out j) = hexchar (s.hexNumber base len / 16 ^ (k - 1 - j) % 16) := by
  obtain ⟨t, hparse, hreg, -⟩ :=
    exec_of_commit_fits (exec_parse_valid r hwindow hhex) ((length_canon _).trans_le hfits)
  have hdigits : digitCount (t.reg r) = k := by rw [digitCount, hreg, length_canon, hcount]
  obtain ⟨u, htohex, hlen, hread⟩ := exec_tohex_fits r hdigits hout
  rw [hreg, val_canon] at hread
  exact ⟨t, u, hparse, htohex, hlen, hread⟩

theorem hexNumber_succ (s : State) (base k : Nat) :
    s.hexNumber base (k + 1) = s.digitAt (base + k) + 16 * s.hexNumber base k := by
  rw [hexNumber_eq_spelled, hexNumber_eq_spelled]
  rfl

/-- A string cut in two: the number of its first `n` characters stands above that of the other `k` (41_parse.md R100). -/
theorem hexNumber_add (s : State) (base n k : Nat) :
    s.hexNumber base (n + k) = s.hexNumber (base + n) k + 16 ^ k * s.hexNumber base n := by
  induction k with
  | zero => simp [State.hexNumber]
  | succ k ih =>
    rw [← Nat.add_assoc, hexNumber_succ, hexNumber_succ, ih, Nat.add_assoc base]
    ring

theorem digitAt_lt (s : State) (a : Nat) : s.digitAt a < 16 := nibbleAt_lt s.txt a 0

/-- The positional digit of weight `16^k` is the character with `k` characters after it (41_parse.md R100). -/
theorem hexNumber_div_mod (s : State) (base n k : Nat) :
    s.hexNumber base (n + 1 + k) / 16 ^ k % 16 = s.digitAt (base + n) := by
  have hlow := hexNumber_lt s (base + (n + 1)) k
  have hdigit := digitAt_lt s (base + n)
  rw [hexNumber_add, Nat.add_mul_div_left _ _ (by positivity), Nat.div_eq_of_lt hlow, hexNumber_succ]
  omega

/-- Leading zeros do not count (41_parse.md R102). -/
theorem hexNumber_of_leading_zeros {s : State} {base n : Nat} (h : ∀ j < n, s.digitAt (base + j) = 0) (k : Nat) :
    s.hexNumber base (n + k) = s.hexNumber (base + n) k := by
  have hzero : s.hexNumber base n = 0 := by
    refine Finset.sum_eq_zero fun j hj => ?_
    have hj := Finset.mem_range.1 hj
    rw [show base + n - 1 - j = base + (n - 1 - j) by omega, h _ (by omega), Nat.zero_mul]
  rw [hexNumber_add, hzero, Nat.mul_zero, Nat.add_zero]

/-- A string of `k + 1` characters whose first one is not 0, or that has no other, needs `k + 1` digits of output
(46_tohex.md R162). -/
theorem digit_count_of_hexNumber {s : State} {base k : Nat} (h : s.digitAt base ≠ 0 ∨ k = 0) :
    max 1 ((bitlen (s.hexNumber base (k + 1)) + 3) / 4) = k + 1 := by
  have hupper := bitlen_hexNumber_le s base (k + 1)
  rcases h with hfirst | rfl
  · have hlower : 4 * k < bitlen (s.hexNumber base (k + 1)) := by
      rw [← not_le, bitlen_le_iff, not_lt, Nat.pow_mul, Nat.add_comm k 1, hexNumber_add, hexNumber_succ]
      exact le_add_left (Nat.le_mul_of_pos_right _ (by rw [Nat.add_zero]; omega))
    omega
  · omega

/-- Every string of at least one character has a first character that is not 0, or a last one. -/
theorem exists_first_digit (s : State) (base : Nat) {len : Nat} (h : 1 ≤ len) :
    ∃ z < len, (∀ j < z, s.digitAt (base + j) = 0) ∧ (s.digitAt (base + z) ≠ 0 ∨ z + 1 = len) := by
  have hlast : ∃ z, s.digitAt (base + z) ≠ 0 ∨ z + 1 = len := ⟨len - 1, .inr (by omega)⟩
  have hle : Nat.find hlast ≤ len - 1 := Nat.find_min' hlast (.inr (by omega))
  refine ⟨Nat.find hlast, by omega, fun j hj => ?_, Nat.find_spec hlast⟩
  have hzero := Nat.find_min hlast hj
  rw [not_or, not_not] at hzero
  exact hzero.1

end Sys2Proof.Machine

open Sys2Proof Sys2Proof.Machine

/-- Settles O38: with its `z` leading zeros cut off, the string's number has one positional digit per character left, so
TOHEX writes these characters' digits in their order; the empty string has the number 0. -/
theorem tohexAfterParseRoundTrips : Obligations.TohexAfterParseRoundTrips := by
  refine ⟨fun r base len out s hwindow hlen _ _ hhex hfits hout => ?_, fun r base out s hbase hout => ?_⟩
  · obtain ⟨z, hz, hzeros, hfirst⟩ := exists_first_digit s base hlen
    obtain ⟨k, rfl⟩ : ∃ k, len = z + (k + 1) := ⟨len - z - 1, by omega⟩
    have hnumber := hexNumber_of_leading_zeros hzeros (k + 1)
    have hcount : max 1 ((bitlen (s.hexNumber base (z + (k + 1))) + 3) / 4) = k + 1 := by
      rw [hnumber]
      exact digit_count_of_hexNumber (hfirst.imp_right (by omega))
    rw [hcount] at hout
    obtain ⟨t, u, hparse, htohex, htxtlen, hread⟩ := exec_parse_then_tohex r hwindow hhex hfits hcount hout
    have hleft : z + (k + 1) - z = k + 1 := Nat.add_sub_cancel_left z (k + 1)
    refine ⟨t, u, z, hparse, htohex, hz, hzeros, hfirst, htxtlen.trans hleft.symm, fun j hj => ?_⟩
    rw [hleft] at hj
    have hdigit := hexNumber_div_mod s (base + z) j (k - j)
    rw [show j + 1 + (k - j) = k + 1 by omega] at hdigit
    refine (hread j hj).trans ?_
    rw [hnumber, Nat.add_sub_cancel, hdigit]
  · have hempty : s.hexNumber base 0 = 0 := Finset.sum_range_zero _
    have hfits : bitlen (s.hexNumber base 0) ≤ Config.cap := by simp [hempty, bitlen_zero]
    have hcount : max 1 ((bitlen (s.hexNumber base 0) + 3) / 4) = 1 := by simp [hempty, bitlen_zero]
    obtain ⟨t, u, hparse, htohex, htxtlen, hread⟩ := exec_parse_then_tohex r (Nat.le_of_lt hbase)
      (fun _ hj => absurd hj (Nat.not_lt_zero _)) hfits hcount (Nat.succ_le_of_lt hout)
    refine ⟨t, u, hparse, htohex, htxtlen, (hread 0 Nat.one_pos).trans ?_⟩
    rw [hempty]
    rfl

end

section
/-! The laws of the ripple-carry adder (42_add_sub.md R112, R113): its value and its length determine its result, so each law
is one equation of values and one of lengths. -/

namespace Sys2Proof.Machine

/-- The closed form of the adder (42_add_sub.md R112). -/
theorem add_eq_enc (x y : Bits) :
    add x y = enc (val x + val y) (max (max x.length y.length) (bitlen (val x + val y))) := by
  rw [← length_add, ← val_add, enc_val]

/-- A sum is at most one bit longer than the longer operand: the carry out (42_add_sub.md R111). -/
theorem length_add_le (x y : Bits) : (add x y).length ≤ max x.length y.length + 1 := by
  rw [add, length_addFrom _ _ _ _ (le_max_left _ _) (le_max_right _ _)]
  split <;> omega

theorem add_bits_comm (x y : Bits) : add x y = add y x := by
  refine eq_of_val_eq ?_ ?_
  · rw [length_add, length_add, max_comm x.length, Nat.add_comm (val x)]
  · rw [val_add, val_add, Nat.add_comm]

/-- The length of a sum of three: the partial sum is never longer than the total (42_add_sub.md R113 (b)). -/
theorem length_add_add (x y z : Bits) :
    (add (add x y) z).length =
      max (max (max x.length y.length) z.length) (bitlen (val x + val y + val z)) := by
  have hpartial : bitlen (val x + val y) ≤ bitlen (val x + val y + val z) := bitlen_mono (Nat.le_add_right _ _)
  rw [length_add, length_add, val_add]
  omega

theorem val_add_add (x y z : Bits) : val (add (add x y) z) = val x + val y + val z := by
  rw [val_add, val_add]

theorem add_bits_assoc (x y z : Bits) : add (add x y) z = add x (add y z) := by
  have htotal : val y + val z + val x = val x + val y + val z := by omega
  rw [add_bits_comm x (add y z)]
  refine eq_of_val_eq ?_ ?_
  · rw [length_add_add, length_add_add, htotal]
    omega
  · rw [val_add_add, val_add_add, htotal]

theorem add_add_eq_enc (x y z : Bits) :
    add (add x y) z = enc (val x + val y + val z)
      (max (max (max x.length y.length) z.length) (bitlen (val x + val y + val z))) := by
  rw [← length_add_add, ← val_add_add, enc_val]

/-- No operand is longer than a sum of canonical operands needs (42_add_sub.md R113 (c)). -/
theorem isCanonical_add {x y : Bits} (hx : isCanonical x = true) (hy : isCanonical y = true) :
    isCanonical (add x y) = true := by
  rw [isCanonical_iff] at hx hy ⊢
  rw [length_add, val_add, hx, hy]
  exact max_eq_right (max_le (bitlen_mono (Nat.le_add_right _ _)) (bitlen_mono (Nat.le_add_left _ _)))

@[simp] theorem add_nil (x : Bits) : add x [] = x := by
  refine eq_of_val_eq ?_ ?_
  · have hfits := bitlen_val_le x
    rw [length_add, val_nil, List.length_nil, Nat.add_zero]
    omega
  · rw [val_add, val_nil, Nat.add_zero]

@[simp] theorem nil_add (x : Bits) : add [] x = x := by rw [add_bits_comm, add_nil]

end Sys2Proof.Machine

open Sys2Proof Sys2Proof.Machine

/-- Settles O39: the adder's value and length, and the sequence the two determine. -/
theorem adderHasItsClosedForm : Obligations.AdderHasItsClosedForm :=
  fun x y => ⟨val_add x y, length_add x y, add_eq_enc x y⟩

/-- Settles O40: both sides of each law have the same value and the same length. -/
theorem adderLawsHold : Obligations.AdderLawsHold :=
  ⟨add_bits_comm, fun x y z => ⟨add_bits_assoc x y z, add_add_eq_enc x y z⟩, fun _ _ => isCanonical_add, by decide⟩

end

section
/-! The commands ADD and NEGW (42_add_sub.md R110, R114): each is the commit of its function's result, whose length says
whether it fits. -/

namespace Sys2Proof

/-- The word of format R3 (30_encoding.md R62). -/
theorem assemble_rd_ra_rb (op rd ra rb : Nat) :
    assemble op rd ra rb 0 = BitVec.ofNat 32 (op * 2 ^ 27 + rd * 2 ^ 24 + ra * 2 ^ 21 + rb * 2 ^ 18) := by
  simp [assemble]

namespace Machine

theorem exec_add (s : State) (rd ra rb : Reg) :
    exec (.add rd ra rb) s = .next (s.commit rd (add (s.reg ra) (s.reg rb))) := rfl

theorem exec_negw (s : State) (rd ra : Reg) (width : Nat) :
    exec (.negw rd ra width) s = .next (s.commit rd (negw (s.reg ra) width)) := rfl

/-- The value of a two's complement, solved for it (42_add_sub.md R114). -/
theorem val_negw_eq (s : Bits) (w : Nat) : val (negw s w) = 2 ^ w - val s % 2 ^ w := by
  have hsum := val_negw s w
  omega

end Machine
end Sys2Proof

open Sys2Proof Sys2Proof.Machine

/-- Settles O41: the sum is at most one bit longer than its longer operand, so it overflows only from an operand of CAP
bits. -/
theorem addCommandAdds : Obligations.AddCommandAdds := by
  intro rd ra rb s n hn
  have hlen : (add (s.reg ra) (s.reg rb)).length = n := (length_add _ _).trans hn.symm
  refine ⟨assemble_rd_ra_rb 0x0C rd.num ra.num rb.num, ?_, ?_, fun x => ⟨add_nil x, nil_add x⟩⟩
  · intro hfits
    obtain ⟨t, hexec, hreg, hframe⟩ := exec_of_commit_fits (exec_add s rd ra rb) (hlen.trans_le hfits)
    refine ⟨t, hexec, ?_, ?_, hframe⟩
    · rw [hreg, add_eq_enc, ← hn]
    · rw [hreg, val_add]
  · intro hover
    refine ⟨exec_of_commit_overflows (exec_add s rd ra rb) hlen hover, fun hinv => ?_⟩
    have hcarry := length_add_le (s.reg ra) (s.reg rb)
    have hra := hinv.regsFit ra
    have hrb := hinv.regsFit rb
    omega

/-- Settles O42: the two's complement has the length of the width, and one bit more when the value modulo `2^width` is 0. -/
theorem negwNegatesInTheWidth : Obligations.NegwNegatesInTheWidth := by
  intro rd ra width m n s _ hm hn
  have hlen : (negw (s.reg ra) width).length = n := by rw [length_negw, ← hm, hn]
  refine ⟨assemble_rd_ra_low 0x0E rd.num ra.num width, ?_, ?_⟩
  · intro hfits
    obtain ⟨t, hexec, hreg, hframe⟩ := exec_of_commit_fits (exec_negw s rd ra width) (hlen.trans_le hfits)
    refine ⟨t, hexec, ?_, ?_, hreg, hframe⟩
    · rw [hreg, val_negw_eq, ← hm]
    · rw [hreg, hlen]
  · exact exec_of_commit_overflows (exec_negw s rd ra width) hlen

end

section
/-! The subtractor and the command SUB (42_add_sub.md R115 to R118): the two ranges of the supported difference, what SUB
answers for each operand shape, and the addition that undoes it. -/

namespace Sys2Proof.Machine

theorem val_lt_two_pow_of_length_le {s : Bits} {w : Nat} (h : s.length ≤ w) : val s < 2 ^ w :=
  (val_lt_two_pow s).trans_le (Nat.pow_le_pow_right Nat.two_pos h)

/-- A shorter sequence has a smaller value than a canonical one, whose top bit is 1 (42_add_sub.md R116). -/
theorem val_lt_of_length_lt {a b : Bits} (hb : isCanonical b = true) (h : a.length < b.length) : val a < val b := by
  rw [(isCanonical_iff b).1 hb] at h
  exact (val_lt_two_pow a).trans_le (two_pow_le_of_lt_bitlen h)

theorem eq_of_isCanonical {x y : Bits} (hx : isCanonical x = true) (hy : isCanonical y = true) (hval : val x = val y) :
    x = y := by
  rw [← canon_of_isCanonical hx, hval, canon_of_isCanonical hy]

/-- The value of the two's complement that the supported subtraction adds (42_add_sub.md R117). -/
theorem val_negw_of_length_le {a b : Bits} (h : b.length ≤ a.length) :
    val (negw b a.length) = 2 ^ a.length - val b := by
  rw [val_negw_eq, Nat.mod_eq_of_lt (val_lt_two_pow_of_length_le h)]

section
variable {a b : Bits} (h : b.length ≤ a.length)
include h

/-- The supported subtraction as the rule writes it (42_add_sub.md R115). -/
theorem sub_eq_strip_take : (sub a b).1 = strip ((add a (negw b a.length)).take a.length) := by
  rw [sub, if_neg (by omega)]

/-- The true difference (42_add_sub.md R117). -/
theorem sub_of_val_le (hval : val b ≤ val a) : (sub a b).1 = canon (val a - val b) := by
  have ha := val_lt_two_pow a
  rw [sub_supported h, show val a + 2 ^ a.length - val b = val a - val b + 2 ^ a.length by omega, Nat.add_mod_right,
    Nat.mod_eq_of_lt (by omega)]

/-- The wrapped difference (42_add_sub.md R117). -/
theorem sub_of_val_lt (hval : val a < val b) : (sub a b).1 = canon (2 ^ a.length + val a - val b) := by
  have hb := val_lt_two_pow_of_length_le h
  rw [sub_supported h, Nat.add_comm (val a), Nat.mod_eq_of_lt (by omega)]

/-- Adding the subtrahend to the true difference (42_add_sub.md R118). -/
theorem val_add_sub_of_val_le (hval : val b ≤ val a) : val (add (sub a b).1 b) = val a := by
  rw [val_add, sub_of_val_le h hval, val_canon, Nat.sub_add_cancel hval]

/-- Adding the subtrahend to the wrapped difference (42_add_sub.md R118). -/
theorem val_add_sub_of_val_lt (hval : val a < val b) : val (add (sub a b).1 b) = 2 ^ a.length + val a := by
  have hb := val_lt_two_pow_of_length_le h
  rw [val_add, sub_of_val_lt h hval, val_canon, Nat.sub_add_cancel (by omega)]

/-- The sum that undoes a true difference is no longer than the minuend, so it fits wherever the minuend does. -/
theorem length_add_sub_le (hval : val b ≤ val a) : (add (sub a b).1 b).length ≤ a.length := by
  have hsum := val_add_sub_of_val_le h hval
  have hsub := length_sub_le a b
  have ha := bitlen_val_le a
  rw [val_add] at hsum
  rw [length_add, hsum]
  omega

theorem add_sub_of_isCanonical (hval : val b ≤ val a) (ha : isCanonical a = true) (hb : isCanonical b = true) :
    add (sub a b).1 b = a := by
  have hsub : isCanonical (sub a b).1 = true := by
    rw [sub_of_val_le h hval]
    exact isCanonical_canon _
  exact eq_of_isCanonical (isCanonical_add hsub hb) ha (val_add_sub_of_val_le h hval)

end

theorem exec_sub (s : State) (rd ra rb : Reg) :
    exec (.sub rd ra rb) s =
      .next (s.commitWith (s.orDiag (sub (s.reg ra) (s.reg rb)).2) rd (sub (s.reg ra) (s.reg rb)).1) := rfl

variable {s : State} {ra rb : Reg} (rd : Reg)

/-- SUB of a supported shape is the commit of the difference, with DIAG left (42_add_sub.md R115). -/
theorem exec_sub_commits (h : (s.reg rb).length ≤ (s.reg ra).length) :
    exec (.sub rd ra rb) s = .next (s.commit rd (sub (s.reg ra) (s.reg rb)).1) := by
  rw [exec_sub, sub_supported h, State.orDiag_false, State.commit]

/-- SUB of a supported shape completes in every state that meets the invariant: the difference is no longer than the
minuend (42_add_sub.md R115). -/
theorem exec_sub_supported (hinv : s.Inv) (h : (s.reg rb).length ≤ (s.reg ra).length) :
    ∃ t, exec (.sub rd ra rb) s = .next t ∧ t.reg rd = (sub (s.reg ra) (s.reg rb)).1 ∧ OnlyReg rd s t :=
  exec_of_commit_le_source hinv (exec_sub_commits rd h) (length_sub_le _ _)

/-- SUB of the unsupported shape empties its destination and sets DIAG (42_add_sub.md R116). -/
theorem exec_sub_unsupported (h : (s.reg ra).length < (s.reg rb).length) :
    exec (.sub rd ra rb) s = .next ((s.orDiag true).setReg rd []) := by
  rw [exec_sub, sub_unsupported h, State.commitWith_fits _ _ _ (Nat.zero_le _)]

/-- What SUB of the unsupported shape leaves unchanged: all but its destination and DIAG (42_add_sub.md R116). -/
theorem exec_sub_unsupported_frame (h : (s.reg ra).length < (s.reg rb).length) :
    ∃ t, exec (.sub rd ra rb) s = .next t ∧ t.reg rd = [] ∧ t.diag = true ∧ SameFault s t ∧
      SameRegsBut rd s t ∧ t.ge = s.ge ∧ t.bit = s.bit ∧ SameCsrs s t ∧ SameTxt s t ∧ SameHost s t := by
  obtain ⟨hregs, hfault, ⟨hdiag, hge, hbit⟩, hcsrs, htxt, hhost⟩ := OnlyReg.setReg (s.orDiag true) rd []
  have hset : (s.orDiag true).diag = true := Bool.or_true s.diag
  exact ⟨_, exec_sub_unsupported rd h, State.setReg_reg_self _ rd [], hdiag.trans hset, hfault, hregs, hge, hbit, hcsrs,
    htxt, hhost⟩

end Sys2Proof.Machine

open Sys2Proof Sys2Proof.Machine

/-- Settles O43: the difference modulo `2^len(a)` is no longer than the minuend, so SUB never raises CAPACITY, and its two
ranges are the true difference and the wrapped one. -/
theorem subSubtractsModuloTheMinuendWidth : Obligations.SubSubtractsModuloTheMinuendWidth := by
  refine ⟨fun rd ra rb s hinv => ⟨assemble_rd_ra_rb 0x0D rd.num ra.num rb.num, fun hshape => ?_, fun hshape => ?_⟩,
    fun a b hshape => ⟨val_negw_of_length_le hshape, ?_⟩⟩
  · obtain ⟨t, hexec, hreg, hframe⟩ := exec_sub_supported rd hinv hshape
    exact ⟨t, hexec, fun hval => hreg.trans (sub_of_val_le hshape hval),
      fun hval => hreg.trans (sub_of_val_lt hshape hval), hreg.trans (sub_eq_strip_take hshape), hframe⟩
  · obtain ⟨t, hexec, hreg, hdiag, hfault, -⟩ := exec_sub_unsupported_frame rd hshape
    exact ⟨t, hexec, hreg, hdiag, hfault⟩
  · rw [val_add, val_negw_of_length_le hshape, Nat.add_sub_assoc (val_lt_two_pow_of_length_le hshape).le]

/-- Settles O44: the empty sequence always fits, and a canonical subtrahend longer than the minuend is above it. -/
theorem subOfUnsupportedShapeSetsTheDiagnostic : Obligations.SubOfUnsupportedShapeSetsTheDiagnostic :=
  fun rd _ _ _ hshape => ⟨exec_sub_unsupported_frame rd hshape, fun _ hb => val_lt_of_length_lt hb hshape⟩

/-- Settles O45: SUB leaves the subtrahend in its register, and the sum is no longer than the minuend, so ADD completes. -/
theorem addUndoesSub : Obligations.AddUndoesSub := by
  refine ⟨fun rd rd' ra rb s hinv hne hshape hval => ?_, fun a b => val_add_sub_of_val_lt, fun a b hshape => ?_⟩
  · obtain ⟨t, hsub, hrd, hregs, -⟩ := exec_sub_supported rd hinv hshape
    have hadd := exec_add t rd' rd rb
    rw [hrd, hregs rb hne.symm] at hadd
    obtain ⟨u, hexec, hreg, -⟩ :=
      exec_of_commit_fits hadd ((length_add_sub_le hshape hval).trans (hinv.regsFit ra))
    refine ⟨t, u, hsub, hexec, ?_, fun ha hb => ?_⟩
    · rw [hreg, val_add_sub_of_val_le hshape hval]
    · rw [hreg, add_sub_of_isCanonical hshape hval ha hb]
  · rw [sub_unsupported hshape, nil_add]

end

section
/-! The multiplier and the command MUL (43_mul.md R130 to R133): the swap of the operands, the value and the length of a
product, and the laws that the two determine. -/

namespace Sys2Proof.Machine

/-- The bit length of a product is at least the sum of the bit lengths less one (43_mul.md R133 (b)). -/
theorem add_lt_bitlen_mul {v w m n : Nat} (hv : m < bitlen v) (hw : n < bitlen w) : m + n < bitlen (v * w) := by
  by_contra! hle
  have hlt := (bitlen_le_iff _ _).1 hle
  have hge := Nat.mul_le_mul (two_pow_le_of_lt_bitlen hv) (two_pow_le_of_lt_bitlen hw)
  rw [← Nat.pow_add] at hge
  omega

theorem bitlen_val_mul_val_le (x y : Bits) : bitlen (val x * val y) ≤ x.length + y.length := by
  rw [bitlen_le_iff, Nat.pow_add]
  exact Nat.mul_lt_mul'' (val_lt_two_pow x) (val_lt_two_pow y)

variable {a b : Bits}

theorem mul_eq_mulFrom (h : b.length ≤ a.length) : mul a b = mulFrom a b 0 [] := if_neg (Nat.not_lt.2 h)

/-- The order of operands of different raw lengths does not matter: the longer one is `left` (43_mul.md R131). -/
theorem mul_swap_of_length_lt (h : a.length < b.length) : mul a b = mul b a := by
  rw [mul_eq_mulFrom h.le]
  exact if_pos h

/-- A right operand without a set bit adds nothing (43_mul.md R132). -/
theorem mul_eq_nil (h : b.length ≤ a.length) (hb : val b = 0) : mul a b = [] := by
  rw [mul_eq_mulFrom h, mulFrom_of_val_zero _ _ _ _ hb]

/-- The length of a product whose right operand has a set bit (43_mul.md R132). -/
theorem length_mul (h : b.length ≤ a.length) (hb : val b ≠ 0) :
    (mul a b).length = max (a.length + (bitlen (val b) - 1)) (bitlen (val a * val b)) := by
  rw [mul_eq_mulFrom h, length_mulFrom _ _ _ _ hb]
  simp

/-- No product is longer than its operands together (43_mul.md R130). -/
theorem length_mul_le (a b : Bits) : (mul a b).length ≤ a.length + b.length := by
  wlog h : b.length ≤ a.length generalizing a b
  · rw [mul_swap_of_length_lt (by omega), Nat.add_comm]
    exact this b a (by omega)
  by_cases hb : val b = 0
  · simp [mul_eq_nil h hb]
  · have hhigh := bitlen_val_le b
    have hprod := bitlen_val_mul_val_le a b
    rw [length_mul h hb]
    omega

/-- No partial of canonical operands is longer than their product needs (43_mul.md R133 (b)). -/
theorem isCanonical_mul (ha : isCanonical a = true) (hb : isCanonical b = true) : isCanonical (mul a b) = true := by
  wlog h : b.length ≤ a.length generalizing a b
  · rw [mul_swap_of_length_lt (by omega)]
    exact this hb ha (by omega)
  by_cases hzero : val b = 0
  · rw [mul_eq_nil h hzero]
    rfl
  · have hpos := length_pos_of_val_ne_zero hzero
    rw [isCanonical_iff] at ha hb ⊢
    have hprod : a.length - 1 + (b.length - 1) < bitlen (val a * val b) := add_lt_bitlen_mul (by omega) (by omega)
    rw [length_mul h hzero, val_mul]
    omega

/-- Canonical operands commute bit for bit (43_mul.md R133 (b)). -/
theorem mul_bits_comm (ha : isCanonical a = true) (hb : isCanonical b = true) : mul a b = mul b a := by
  refine eq_of_isCanonical (isCanonical_mul ha hb) (isCanonical_mul hb ha) ?_
  rw [val_mul, val_mul, Nat.mul_comm]

/-- The one is neutral for a non-empty left operand, whose length it keeps (43_mul.md R133 (c)). -/
theorem mul_one_bits (h : 1 ≤ a.length) : mul a [true] = a := by
  have hone : val [true] = 1 := rfl
  refine eq_of_val_eq ?_ ?_
  · have hfits := bitlen_val_le a
    have hbit : bitlen 1 = 1 := rfl
    rw [length_mul (b := [true]) h (by decide), hone, Nat.mul_one, hbit]
    omega
  · rw [val_mul, hone, Nat.mul_one]

theorem nil_mul_one_bits : mul [] [true] = [] := by
  rw [mul_swap_of_length_lt (by simp), mul_eq_nil (Nat.zero_le _) val_nil]

theorem exec_mul (s : State) (rd ra rb : Reg) :
    exec (.mul rd ra rb) s = .next (s.commit rd (mul (s.reg ra) (s.reg rb))) := rfl

end Sys2Proof.Machine

open Sys2Proof Sys2Proof.Machine

/-- Settles O46: a shorter first operand is swapped to the right, and then the first operand is `left`. -/
theorem multiplierHasItsClosedForm : Obligations.MultiplierHasItsClosedForm := by
  intro a b left right hsides
  split at hsides
  · next h =>
    obtain ⟨rfl, rfl⟩ := Prod.mk.inj hsides
    rw [mul_swap_of_length_lt h, Nat.mul_comm (val right)]
    exact ⟨mul_eq_nil h.le, fun hright => ⟨val_mul _ _, length_mul h.le hright⟩⟩
  · next h =>
    obtain ⟨rfl, rfl⟩ := Prod.mk.inj hsides
    have hle := Nat.not_lt.1 h
    exact ⟨mul_eq_nil hle, fun hright => ⟨val_mul _ _, length_mul hle hright⟩⟩

/-- Settles O47: MUL is the commit of a product no longer than its operands together, and CAP is twice MAXW. -/
theorem mulCommandMultiplies : Obligations.MulCommandMultiplies := by
  intro rd ra rb s
  refine ⟨assemble_rd_ra_rb 0x0F rd.num ra.num rb.num, fun hfits => ?_,
    exec_of_commit_overflows (exec_mul s rd ra rb) rfl, fun ha hb => ?_⟩
  · obtain ⟨t, hexec, hreg, hframe⟩ := exec_of_commit_fits (exec_mul s rd ra rb) hfits
    refine ⟨t, hexec, hreg, ?_, hframe⟩
    rw [hreg, val_mul]
  · have hcap : Config.maxw + Config.maxw = Config.cap := rfl
    exact hcap ▸ (length_mul_le _ _).trans (Nat.add_le_add ha hb)

/-- Settles O48: the product of values always, and canonical products of equal value are equal sequences. -/
theorem multiplierLawsHold : Obligations.MultiplierLawsHold :=
  ⟨val_mul, fun _ _ ha hb => ⟨isCanonical_mul ha hb, mul_bits_comm ha hb⟩, fun _ => mul_one_bits, nil_mul_one_bits,
    fun a => val_mul a []⟩

end

section
/-! The divider and the command DIV (44_div.md R140 to R144): the quotient for a canonical divisor, and what DIV answers for
a divisor of value 0 and for any other. -/

namespace Sys2Proof.Machine

/-- The closed form of the divider: its quotient and last remainder are those of the floor division (44_div.md R143). -/
theorem div_of_isCanonical (a : Bits) {b : Bits} (hb : isCanonical b = true) (h : val b ≠ 0) :
    div a b = (canon (val a / val b), false) := by
  have hpos : 0 < val b := Nat.pos_of_ne_zero h
  obtain ⟨hval, hrem, hdiag⟩ := divFrom_canonical hb a.reverse ⟨[], [], false⟩ hpos
  simp only [val_nil, Nat.zero_mul, Nat.mul_zero, Nat.zero_add, List.reverse_reverse] at hval
  have hquo : val (divFrom b a.reverse ⟨[], [], false⟩).quo = val a / val b := by
    rw [← hval, Nat.mul_comm, Nat.mul_add_div hpos, Nat.div_eq_of_lt hrem, Nat.add_zero]
  rw [div, strip_eq_canon, hquo, hdiag]

/-- The quotient is stripped, so canonical for every divisor (44_div.md R140). -/
theorem isCanonical_div (a b : Bits) : isCanonical (div a b).1 = true := isCanonical_strip _

variable {s : State} {rb : Reg} (rd ra : Reg)

theorem exec_div_of_val_eq_zero (h : val (s.reg rb) = 0) :
    exec (.div rd ra rb) s = .next (s.raise .divZero 0#32) := congrArg Host.Outcome.next (if_pos h)

/-- DIV by a divisor of non-zero value completes in every state that meets the invariant: the quotient is no longer than the
dividend (44_div.md R140). -/
theorem exec_div_of_val_ne_zero (hinv : s.Inv) (h : val (s.reg rb) ≠ 0) :
    exec (.div rd ra rb) s =
      .next ((s.orDiag (div (s.reg ra) (s.reg rb)).2).setReg rd (div (s.reg ra) (s.reg rb)).1) := by
  rw [← s.commitWith_fits _ rd ((length_div_le _ _).trans (hinv.regsFit ra))]
  exact congrArg Host.Outcome.next (if_neg h)

end Sys2Proof.Machine

open Sys2Proof Sys2Proof.Machine

/-- Settles O49: the quotient is the floor quotient, whose bounds are those of the natural numbers. -/
theorem dividerHasItsClosedForm : Obligations.DividerHasItsClosedForm := by
  intro a b hb h
  rw [div_of_isCanonical a hb h, val_canon]
  exact ⟨rfl, Nat.div_mul_le_self _ _, Nat.lt_div_mul_add (Nat.pos_of_ne_zero h)⟩

/-- Settles O51: past the check of the divisor, DIV adds the divider's diagnostic to DIAG and writes a quotient that fits. -/
theorem divCommandDivides : Obligations.DivCommandDivides := by
  intro rd ra rb s hinv
  refine ⟨assemble_rd_ra_rb 0x10 rd.num ra.num rb.num, exec_div_of_val_eq_zero rd ra, fun h => ?_⟩
  have hreg := State.setReg_reg_self (s.orDiag (div (s.reg ra) (s.reg rb)).2) rd (div (s.reg ra) (s.reg rb)).1
  obtain ⟨hregs, hfault, ⟨hdiag, hge, hbit⟩, hcsrs, htxt, hhost⟩ :=
    OnlyReg.setReg (s.orDiag (div (s.reg ra) (s.reg rb)).2) rd (div (s.reg ra) (s.reg rb)).1
  refine ⟨_, exec_div_of_val_ne_zero rd ra hinv h, hreg, ?_, ?_, hdiag, hregs, hfault, hge, hbit, hcsrs, htxt, hhost⟩
  · rw [hreg]
    exact isCanonical_div _ _
  · rw [hreg]
    exact length_div_le _ _

/-- Settles O52: the check of the divisor comes first, and the dividend plays no part in it. -/
theorem divByZeroRaisesDivZero : Obligations.DivByZeroRaisesDivZero :=
  fun rd ra _ _ => exec_div_of_val_eq_zero rd ra

end

section
/-! The comparison (44_div.md R145, R146): what the bit-serial network computes, and the command CMPGE. -/

namespace Sys2Proof

/-- The word of the format with `ra` and `rb` and without `rd` (30_encoding.md R62). -/
theorem assemble_ra_rb (op ra rb : Nat) :
    assemble op 0 ra rb 0 = BitVec.ofNat 32 (op * 2 ^ 27 + ra * 2 ^ 21 + rb * 2 ^ 18) := by
  simp [assemble]

namespace Machine

/-- The highest of the `n + 1` lowest bits carries the weight `2^n` (00_scope.md R6). -/
theorem val_mod_two_pow_succ (s : Bits) (n : Nat) :
    val s % 2 ^ (n + 1) = val s % 2 ^ n + 2 ^ n * (bitAt s n).toNat := by
  rw [bitAt_eq_testBit, Nat.toNat_testBit, Nat.mod_pow_succ]

/-- The scan of the `n` lowest indexes compares the values of the `n` lowest bits: where the highest of them differ, that
bit outweighs all bits below it (44_div.md R146). -/
theorem geScan_eq (x y : Bits) (n : Nat) : geScan x y n = decide (val y % 2 ^ n ≤ val x % 2 ^ n) := by
  induction n with
  | zero => simp [geScan, Nat.mod_one]
  | succ n ih =>
    have hx := Nat.mod_lt (val x) (Nat.two_pow_pos n)
    have hy := Nat.mod_lt (val y) (Nat.two_pow_pos n)
    rw [geScan, ih, val_mod_two_pow_succ, val_mod_two_pow_succ]
    by_cases heq : bitAt x n = bitAt y n
    · rw [if_pos heq, heq]
      simp
    · rw [if_neg heq, Bool.eq_not_of_ne (Ne.symm heq)]
      cases bitAt x n <;> simp <;> omega

/-- A write of GE leaves everything else as it was (10_state.md R18). -/
theorem State.setGe_frame (s : State) (b : Bool) :
    SameRegs s (s.setGe b) ∧ SameFault s (s.setGe b) ∧ (s.setGe b).diag = s.diag ∧ (s.setGe b).bit = s.bit ∧
      SameCsrs s (s.setGe b) ∧ SameTxt s (s.setGe b) ∧ SameHost s (s.setGe b) := by
  refine ⟨s.setGe_reg b, ?_, s.setGe_diag b, s.setGe_bit b, ?_, s.setGe_memRead b, ?_⟩
  · simp [SameFault]
  · simp [SameCsrs]
  · simp [SameHost]

theorem exec_cmpge (s : State) (ra rb : Reg) :
    exec (.cmpge ra rb) s = .next (s.setGe (ge (s.reg ra) (s.reg rb))) := rfl

end Machine
end Sys2Proof

open Sys2Proof Sys2Proof.Machine

/-- Settles O53: over all indexes of the longer operand the scan has seen the whole of both values. -/
theorem comparatorNetworkComparesValues : Obligations.ComparatorNetworkComparesValues := by
  intro x y
  have hx := val_lt_two_pow_of_length_le (le_max_left x.length y.length)
  have hy := val_lt_two_pow_of_length_le (le_max_right x.length y.length)
  refine ⟨?_, rfl⟩
  rw [geScan_eq, Nat.mod_eq_of_lt hx, Nat.mod_eq_of_lt hy]

/-- Settles O54: GE takes the comparison of the values, and a write of GE changes nothing else. -/
theorem cmpgeWritesGe : Obligations.CmpgeWritesGe := fun ra rb s =>
  ⟨assemble_ra_rb 0x11 ra.num rb.num, _, exec_cmpge s ra rb, ge_iff _ _, State.setGe_frame _ _⟩

end

section
/-! The shifts and the commands LSL and LSR (45_shift.md R150 to R157): what each command answers in each range of the count,
what a shift does to the canonical form, and the laws of the two shifts. -/

namespace Sys2Proof.Machine

/-- A shift left multiplies the value by `2^n` (45_shift.md R152). -/
theorem val_lsl_eq_mul (s : Bits) (n : Nat) : val (lsl s n) = val s * 2 ^ n := by rw [val_lsl, Nat.mul_comm]

/-- The zero bits go in below the highest bit, which stays (45_shift.md R153). -/
theorem isCanonical_lsl {s : Bits} (h : s ≠ []) (n : Nat) : isCanonical (lsl s n) = isCanonical s := by
  rw [isCanonical, lsl, List.getLast?_append_of_ne_nil _ h, isCanonical]

theorem nil_lsl (n : Nat) : lsl [] n = zeros n := List.append_nil _

/-- A sequence of zeros has a top bit, which is 0 (45_shift.md R153). -/
theorem isCanonical_zeros_eq_false {n : Nat} (h : 0 < n) : isCanonical (zeros n) = false := by
  simp [isCanonical, zeros, List.getLast?_replicate, h.ne']

/-- A shift right keeps the highest bit or leaves no bit at all (45_shift.md R156). -/
theorem isCanonical_lsr {s : Bits} (h : isCanonical s = true) (n : Nat) : isCanonical (lsr s n) = true := by
  rw [isCanonical, lsr, List.getLast?_drop]
  split
  · rfl
  · exact h

/-- The zero bits that a shift left puts in are the bits that a shift right removes (45_shift.md R157). -/
theorem lsr_lsl (s : Bits) (n : Nat) : lsr (lsl s n) n = s := List.drop_left' (length_zeros n)

/-- A shift left is the product with the canonical `2^n`: equal values, and both canonical (45_shift.md R157). -/
theorem lsl_eq_mul {s : Bits} (hs : isCanonical s = true) (h : s ≠ []) (n : Nat) : lsl s n = mul s (canon (2 ^ n)) := by
  refine eq_of_isCanonical ((isCanonical_lsl h n).trans hs) (isCanonical_mul hs (isCanonical_canon _)) ?_
  rw [val_lsl_eq_mul, val_mul, val_canon]

/-- The empty sequence times a canonical one is the canonical 0, the empty sequence (43_mul.md R133 (b)). -/
theorem nil_mul_of_isCanonical {b : Bits} (hb : isCanonical b = true) : mul [] b = [] := by
  refine eq_of_isCanonical (isCanonical_mul rfl hb) rfl ?_
  rw [val_mul, val_nil, Nat.zero_mul]

variable (s : State) (rd ra : Reg) {n : Nat}

theorem exec_lsl_in_range (h : n < Config.maxw) :
    exec (.lsl rd ra n) s = .next (s.commit rd (lsl (s.reg ra) n)) :=
  congrArg Host.Outcome.next (s.shiftCommit_in_range rd _ h)

theorem exec_lsl_out_of_range (h : Config.maxw ≤ n) :
    exec (.lsl rd ra n) s = .next (s.raise .shiftRange (BitVec.ofNat 32 n)) :=
  congrArg Host.Outcome.next (s.shiftCommit_out_of_range rd _ h)

theorem exec_lsr_in_range (h : n < Config.maxw) :
    exec (.lsr rd ra n) s = .next (s.commit rd (lsr (s.reg ra) n)) :=
  congrArg Host.Outcome.next (s.shiftCommit_in_range rd _ h)

theorem exec_lsr_out_of_range (h : Config.maxw ≤ n) :
    exec (.lsr rd ra n) s = .next (s.raise .shiftRange (BitVec.ofNat 32 n)) :=
  congrArg Host.Outcome.next (s.shiftCommit_out_of_range rd _ h)

end Sys2Proof.Machine

open Sys2Proof Sys2Proof.Machine

/-- Settles O55: past the check of the count LSL is the commit of a sequence n bits longer than the source. -/
theorem lslShiftsLeft : Obligations.LslShiftsLeft := by
  intro rd ra n s _
  have hlen := length_lsl (s.reg ra) n
  refine ⟨assemble_rd_ra_low 0x12 rd.num ra.num n, fun hn hfits => ?_, fun hn hover => ?_,
    exec_lsl_out_of_range s rd ra⟩
  · obtain ⟨t, hexec, hreg, hframe⟩ := exec_of_commit_fits (exec_lsl_in_range s rd ra hn) (hlen.trans_le hfits)
    refine ⟨t, hexec, hreg, ?_, ?_, hframe⟩
    · rw [hreg, hlen]
    · rw [hreg, val_lsl_eq_mul]
  · exact exec_of_commit_overflows (exec_lsl_in_range s rd ra hn) hlen hover

/-- Settles O56: past the check of the count LSR is the commit of a sequence no longer than the source, which fits. -/
theorem lsrShiftsRight : Obligations.LsrShiftsRight := by
  intro rd ra n s hinv _
  have hlen := length_lsr (s.reg ra) n
  have hle := hlen.trans_le (Nat.sub_le _ _)
  refine ⟨assemble_rd_ra_low 0x13 rd.num ra.num n, fun hn => ?_, exec_lsr_out_of_range s rd ra⟩
  obtain ⟨t, hexec, hreg, hframe⟩ := exec_of_commit_le_source hinv (exec_lsr_in_range s rd ra hn) hle
  refine ⟨t, hexec, hreg, ?_, ?_, fun hall => ?_, hframe⟩
  · rw [hreg, hlen, Nat.max_zero]
  · rw [hreg, val_lsr]
  · exact hreg.trans (List.drop_eq_nil_of_le hall)

/-- Settles O57: a shift left keeps the highest bit of a non-empty sequence, and so gives the canonical product; the empty
sequence has no such bit. -/
theorem shiftLawsHold : Obligations.ShiftLawsHold := by
  intro s n
  refine ⟨fun hs h => ⟨(isCanonical_lsl h n).trans hs, lsl_eq_mul hs h n⟩, fun hn => ⟨?_, nil_lsl n, ?_⟩,
    fun hs => isCanonical_lsr hs n, lsr_lsl s n, val_lsl_eq_mul s n⟩
  · rw [nil_lsl, isCanonical_zeros_eq_false hn]
  · exact nil_mul_of_isCanonical (isCanonical_canon _)

end

section
/-! The command TOHEX (46_tohex.md R160, R162): what it answers inside and outside its window, the group of four bits
behind each character, and what stays as it was. -/

namespace Sys2Proof

/-- The word of format T with one address (30_encoding.md R62). -/
theorem assemble_rd_base (op rd base : Nat) :
    assemble op rd 0 0 (base * 2 ^ 12) = BitVec.ofNat 32 (op * 2 ^ 27 + rd * 2 ^ 24 + base * 2 ^ 12) := by
  simpa only [Nat.add_zero] using assemble_rd_base_len op rd base 0

namespace Machine

/-- Group `j`, bits 4j to 4j+3, is the positional digit of weight `16^j` (46_tohex.md R160). -/
theorem group_eq_div_mod (s : Bits) (j : Nat) :
    (bitAt s (4 * j)).toNat + 2 * (bitAt s (4 * j + 1)).toNat + 4 * (bitAt s (4 * j + 2)).toNat +
      8 * (bitAt s (4 * j + 3)).toNat = val s / 16 ^ j % 16 := by
  have hlow : lowGroup (s.drop (4 * j)) = val s / 16 ^ j % 16 := by
    rw [lowGroup_eq, val_drop, Nat.pow_mul, show 2 ^ 4 = 16 from rfl]
  simpa [lowGroup, bitAt_drop, Nat.add_comm] using hlow

/-- A cell outside the window holds no character (46_tohex.md R160). -/
theorem ne_charAddr_of_outside {a : TxtAddr} {base k j : Nat} (hwindow : base + k ≤ Config.txtsz)
    (ha : a.toNat < base ∨ base + k ≤ a.toNat) (hj : j < k) : a ≠ charAddr base j := by
  rintro rfl
  rw [toNat_charAddr (by omega)] at ha
  omega

/-- A write of TXT and TXTLEN leaves everything else as it was (46_tohex.md R160). -/
theorem State.setTxt_setTxtlen_frame (s : State) (m : List Host.Cell) (v : Word) :
    SameRegs s ((s.setTxt m).setTxtlen v) ∧ SameFault s ((s.setTxt m).setTxtlen v) ∧
      SameFlags s ((s.setTxt m).setTxtlen v) ∧ ((s.setTxt m).setTxtlen v).lenr = s.lenr ∧
      ((s.setTxt m).setTxtlen v).sign = s.sign ∧ SameHost s ((s.setTxt m).setTxtlen v) := by
  refine ⟨fun r => ?_, ?_, ?_, rfl, rfl, ?_⟩
  · simp
  · simp [SameFault]
  · simp [SameFlags]
  · simp [SameHost]

variable {s : State} {r : Reg} {base : Nat}

/-- TOHEX of a window within TXT writes the characters and TXTLEN (46_tohex.md R160). -/
theorem exec_tohex_inside (h : base + digitCount (s.reg r) ≤ Config.txtsz) :
    exec (.tohex r base) s =
      .next ((s.setTxt (storeDigits s.txt base (hexDigits (digitCount (s.reg r)) (s.reg r)))).setTxtlen
        (BitVec.ofNat 32 (digitCount (s.reg r)))) :=
  congrArg Host.Outcome.next (if_pos ((windowOk_iff _ _).2 h))

/-- TOHEX of a window that runs past the end of TXT (20_memory.md R57). -/
theorem exec_tohex_outside (h : Config.txtsz < base + digitCount (s.reg r)) :
    exec (.tohex r base) s = .next (s.raise .txtRange (BitVec.ofNat 32 (base + digitCount (s.reg r)))) :=
  congrArg Host.Outcome.next (if_neg (mt (windowOk_iff _ _).1 (Nat.not_le.2 h)))

end Machine
end Sys2Proof

open Sys2Proof Sys2Proof.Machine

/-- Settles O37: character `j` from the end is the positional digit of weight `16^j`, which is the value of group `j`;
the stores reach the window's cells only. -/
theorem tohexWritesTheDigits : Obligations.TohexWritesTheDigits := by
  intro r base k s _ hk
  obtain rfl : k = digitCount (s.reg r) := hk
  refine ⟨assemble_rd_base 0x14 r.num base, fun hwindow => ?_, exec_tohex_outside⟩
  obtain ⟨t, hexec, hlen, hread⟩ := exec_tohex_fits r rfl hwindow
  obtain rfl := Host.Outcome.next.inj ((exec_tohex_inside hwindow).symm.trans hexec)
  refine ⟨_, hexec, fun j hj => ?_, fun a ha => ?_, hlen, s.setTxt_setTxtlen_frame _ _⟩
  · have hchar := hread (digitCount (s.reg r) - 1 - j) (by omega)
    rw [Nat.sub_sub_self (by omega), ← group_eq_div_mod] at hchar
    rwa [show base + digitCount (s.reg r) - 1 - j = base + (digitCount (s.reg r) - 1 - j) by omega]
  · refine read_storeDigits_outside s.txt base _ a fun j hj => ?_
    rw [length_hexDigits] at hj
    exact ne_charAddr_of_outside hwindow ha hj

end

section
/-! The system command CLRDIAG (47_system.md R170), settled from the frame of a write of DIAG and from the discard of every
command on a faulted block (60_exceptions.md R186). -/

namespace Sys2Proof.Machine

theorem encode_clrdiag : encode .clrdiag = 0xA8000000#32 := by decide

theorem exec_clrdiag (s : State) : exec .clrdiag s = .next s.clearDiag := rfl

/-- CLRDIAG writes no flag but DIAG, and nothing that is not a flag (47_system.md R170). -/
theorem State.clearDiag_frame (s : State) :
    s.clearDiag.ge = s.ge ∧ s.clearDiag.bit = s.bit ∧ SameRegs s s.clearDiag ∧ SameFault s s.clearDiag ∧
      SameCsrs s s.clearDiag ∧ SameTxt s s.clearDiag ∧ SameHost s s.clearDiag := by
  refine ⟨s.clearDiag_ge, s.clearDiag_bit, s.clearDiag_reg, ?_, ?_, s.clearDiag_memRead, ?_⟩
  · simp [SameFault]
  · simp [SameCsrs]
  · simp [SameHost]

/-- A faulted block discards every word, legal or not (60_exceptions.md R186). -/
theorem hostCmd_of_fault (w : Word) {s : State} (hf : s.fault = true) : hostCmd w s = .next s := if_pos hf

end Sys2Proof.Machine

open Sys2Proof Sys2Proof.Machine

/-- Settles O58: CLRDIAG is the write of DIAG, and the discard does not depend on the word. -/
theorem clrdiagClearsTheDiagnostic : Obligations.ClrdiagClearsTheDiagnostic := fun s =>
  ⟨encode_clrdiag, ⟨_, exec_clrdiag s, s.clearDiag_diag, s.clearDiag_frame⟩, hostCmd_of_fault _⟩

end

section
/-! The codec of command words (30_encoding.md R61 to R65): the word of a well-formed command matches its row and carries its
operands, and a word that matches a row is the sum of its fields. -/

namespace Sys2Proof

/-- The family of Laws/PerInstr.lean, over all constructors (30_encoding.md R62, R64). -/
theorem encode_in_row {i : Instr} (h : i.WellFormed) :
    opField (encode i) = i.opcode.num ∧ i.opcode.MbzClear (encode i) := by
  cases i with
  | clr rd => exact Laws.EncodesItsRow.clr rd h
  | mov rd ra => exact Laws.EncodesItsRow.mov rd ra h
  | apph rd ra b => exact Laws.EncodesItsRow.apph rd ra b h
  | insl rd ra b => exact Laws.EncodesItsRow.insl rd ra b h
  | remh rd ra => exact Laws.EncodesItsRow.remh rd ra h
  | reml rd ra => exact Laws.EncodesItsRow.reml rd ra h
  | strip rd ra => exact Laws.EncodesItsRow.strip rd ra h
  | cplw rd ra size => exact Laws.EncodesItsRow.cplw rd ra size h
  | getb ra idx => exact Laws.EncodesItsRow.getb ra idx h
  | len ra => exact Laws.EncodesItsRow.len ra h
  | parse r base k => exact Laws.EncodesItsRow.parse r base k h
  | add rd ra rb => exact Laws.EncodesItsRow.add rd ra rb h
  | sub rd ra rb => exact Laws.EncodesItsRow.sub rd ra rb h
  | negw rd ra width => exact Laws.EncodesItsRow.negw rd ra width h
  | mul rd ra rb => exact Laws.EncodesItsRow.mul rd ra rb h
  | div rd ra rb => exact Laws.EncodesItsRow.div rd ra rb h
  | cmpge ra rb => exact Laws.EncodesItsRow.cmpge ra rb h
  | lsl rd ra n => exact Laws.EncodesItsRow.lsl rd ra n h
  | lsr rd ra n => exact Laws.EncodesItsRow.lsr rd ra n h
  | tohex r base => exact Laws.EncodesItsRow.tohex r base h
  | clrdiag => exact Laws.EncodesItsRow.clrdiag h

/-- The word of a command matches the command's row (30_encoding.md R64, R65). -/
theorem encode_match {i : Instr} (h : i.WellFormed) : encode i &&& i.opcode.mask = i.opcode.matchWord :=
  (i.opcode.and_mask_iff _).2 (encode_in_row h)

section
variable {op a b c low : Nat} (hop : op < 32) (ha : a < 8) (hb : b < 8) (hc : c < 8) (hlow : low < 2 ^ 16)
include hop ha hb hc hlow

/-! The fields of an assembled word, as the decoder reads them (30_encoding.md R61, R63). -/

theorem rdField_assemble : rdField (assemble op a b c low) = Reg.ofNum a := by
  obtain ⟨-, hrd, -, -, -⟩ := fields_assemble hop ha hb hc hlow
  rw [rdField, hrd]

theorem raField_assemble : raField (assemble op a b c low) = Reg.ofNum b := by
  obtain ⟨-, -, hra, -, -⟩ := fields_assemble hop ha hb hc hlow
  rw [raField, hra]

theorem rbField_assemble : rbField (assemble op a b c low) = Reg.ofNum c := by
  obtain ⟨-, -, -, hrb, -⟩ := fields_assemble hop ha hb hc hlow
  rw [rbField, hrb]

theorem imm16Field_assemble : imm16Field (assemble op a b c low) = low := by
  obtain ⟨-, -, -, -, himm⟩ := fields_assemble hop ha hb hc hlow
  exact himm

theorem bField_assemble : bField (assemble op a b c low) = (low % 2 == 1) := by
  obtain ⟨-, -, -, -, himm⟩ := fields_assemble hop ha hb hc hlow
  rw [bField, slice_zero_eq, himm]

end

/-- The fields of an assembled text command, as the decoder reads them (30_encoding.md R61). -/
theorem text_fields_assemble {op base k : Nat} (r : Reg) (hop : op < 32) (hbase : base < 2 ^ 12) (hk : k < 2 ^ 12) :
    rdField (assemble op r.num 0 0 (base * 2 ^ 12 + k)) = r ∧ baseField (assemble op r.num 0 0 (base * 2 ^ 12 + k)) = base ∧
      lenField (assemble op r.num 0 0 (base * 2 ^ 12 + k)) = k := by
  obtain ⟨-, hr, hb, hl⟩ := fields_assemble_text hop r.num_lt hbase hk
  exact ⟨by rw [rdField, hr, Reg.ofNum_num], hb, hl⟩

theorem bit_toNat_fits_imm16 (b : Bool) : b.toNat < 65536 := b.toNat_lt.trans (by decide)

theorem bit_of_toNat_mod_two (b : Bool) : (b.toNat % 2 == 1) = b := by cases b <;> rfl

/-- The row's reading of a command's word gives the command back (30_encoding.md R62, R63). -/
theorem instr_encode {i : Instr} (h : i.WellFormed) : i.opcode.instr (encode i) = i := by
  cases i with
  | parse r base k =>
    obtain ⟨hbase, hk⟩ : base < 2 ^ 12 ∧ k < 2 ^ 12 := by simpa [Instr.WellFormed, Instr.wellFormed, imm12Ok] using h
    obtain ⟨hr, hb, hl⟩ := text_fields_assemble (op := 0x0B) r (by decide) hbase hk
    simp only [Instr.opcode, Opcode.instr, encode, hr, hb, hl]
  | tohex r base =>
    have hbase : base < 2 ^ 12 := by simpa [Instr.WellFormed, Instr.wellFormed, imm12Ok] using h
    obtain ⟨hr, hb, -⟩ := text_fields_assemble (op := 0x14) (k := 0) r (by decide) hbase (by decide)
    rw [Nat.add_zero] at hr hb
    simp only [Instr.opcode, Opcode.instr, encode, hr, hb]
  | _ =>
    simp_all [Instr.WellFormed, Instr.wellFormed, imm16Ok, Instr.opcode, Opcode.instr, encode, rdField_assemble,
      raField_assemble, rbField_assemble, imm16Field_assemble, bField_assemble, Reg.num_lt, bit_toNat_fits_imm16,
      bit_of_toNat_mod_two]

/-! The register fields of a word as numbers (30_encoding.md R61: all eight numbers are valid). -/

theorem num_rdField (w : Word) : (rdField w).num = slice w 26 24 := Reg.num_ofNum (slice_lt w 26 24)
theorem num_raField (w : Word) : (raField w).num = slice w 23 21 := Reg.num_ofNum (slice_lt w 23 21)
theorem num_rbField (w : Word) : (rbField w).num = slice w 20 18 := Reg.num_ofNum (slice_lt w 20 18)

/-- A word is assembled from the numbers whose weighted sum it is (30_encoding.md R61). -/
theorem assemble_eq_of_sum {w : Word} {op a b c low : Nat}
    (h : op * 2 ^ 27 + a * 2 ^ 24 + b * 2 ^ 21 + c * 2 ^ 18 + low = w.toNat) : assemble op a b c low = w := by
  rw [assemble, h, BitVec.ofNat_toNat, BitVec.setWidth_eq]

/-- A word of a row is the word of the command that the row reads from it: the opcode, the operand fields and the
must-be-zero bits of a format are all 32 bits (30_encoding.md R60, R62). -/
theorem encode_instr {op : Opcode} {w : Word} (hop : opField w = op.num) (hz : op.MbzClear w) :
    encode (op.instr w) = w := by
  have hw : w.toNat < 2 ^ 32 := w.isLt
  cases op
  all_goals
    simp only [Opcode.MbzClear, Opcode.mustBeZero, List.forall_mem_cons, List.not_mem_nil, IsEmpty.forall_iff,
      implies_true, and_true, Opcode.num, opField, slice] at hop hz
    simp only [Opcode.instr, encode, num_rdField, num_raField, num_rbField, toNat_bField, imm16Field, baseField, lenField,
      slice]
    exact assemble_eq_of_sum (by omega)

end Sys2Proof

open Sys2Proof Sys2Proof.Machine

/-- Settles O1: the word of a command matches one row, that of the command, whose fields hold its operands. -/
theorem decodeOfEncodeIsTheCommand : Obligations.DecodeOfEncodeIsTheCommand := by
  intro i h
  rw [decode_of_match (encode_match h), instr_encode h]

/-- Settles O2: a word that decodes matches a row, and the row's format leaves no bit of it out. -/
theorem encodeOfDecodeIsTheWord : Obligations.EncodeOfDecodeIsTheWord := by
  intro w i hdecode
  refine ⟨wellFormed_of_decode hdecode, ?_⟩
  obtain ⟨op, -, hmatch, rfl⟩ := (decode_command_iff w i).1 hdecode
  obtain ⟨hop, hz⟩ := (op.and_mask_iff w).1 hmatch
  exact encode_instr hop hz

/-- Settles O5: the decoder computes, one word per row. -/
theorem specWordsDecodeToTheirCommands : Obligations.SpecWordsDecodeToTheirCommands := by
  unfold Obligations.SpecWordsDecodeToTheirCommands
  decide
end

section
/-! The faults that a command raises (60_exceptions.md R175 to R185): a command leaves the fault registers alone or raises a
fault of its row in the table of causes. -/

namespace Sys2Proof.Machine

/-- A command raises a fault of its own and does nothing else, or leaves the fault registers alone (60_exceptions.md R185). -/
theorem Does.raises_or_sameFault {i : Instr} {s t : State} (h : Does s i t) :
    (∃ c v, Raises s i c v ∧ t = s.raise c v) ∨ SameFault s t := by
  cases h with
  | raises _ c v hr => exact .inl ⟨c, v, hr, rfl⟩
  | writes | getb | len | cmpge | tohex | clrdiag => exact .inr ⟨rfl, rfl, rfl⟩

theorem Raises.cause_ne_noFault {i : Instr} {s : State} {c : Cause} {v : Word} (h : Raises s i c v) : c ≠ .noFault := by
  cases h <;> decide

/-- The row of a cause (60_exceptions.md R175 to R184): which word raises it, in which states, with which information word. -/
def CauseRow (w : Word) (s : State) : Cause → Word → Prop
  | .noFault, _ => False
  | .malformedInput, v => ∃ r base len k, decode w = .command (.parse r base len) ∧ k < len ∧
      hexval (s.memRead (BitVec.ofNat 12 (base + k))) = none ∧ v.toNat = base + k ∧ v.toNat ≤ 4095
  | .shiftRange, v => ∃ rd ra n, (decode w = .command (.lsl rd ra n) ∨ decode w = .command (.lsr rd ra n)) ∧
      Config.maxw ≤ n ∧ v.toNat = n ∧ n ≤ 65535
  | .mapFail, _ => False
  | .divZero, v => ∃ rd ra rb, decode w = .command (.div rd ra rb) ∧ val (s.reg rb) = 0 ∧ v = 0#32
  | .capacity, v => ∃ i, decode w = .command i ∧ i.opcode ∈ [.apph, .insl, .cplw, .negw, .parse, .add, .mul, .lsl] ∧
      Config.cap < (Instr.result s i).length ∧ v.toNat = (Instr.result s i).length
  | .txtRange, v => ∃ r base k, ((∃ len, decode w = .command (.parse r base len) ∧ k = len) ∨
      (decode w = .command (.tohex r base) ∧ k = max 1 (((s.reg r).length + 3) / 4))) ∧
      v.toNat = base + k ∧ 4097 ≤ v.toNat ∧ v.toNat ≤ 8190
  | .illegalCmd, v => (∃ why, decode w = .illegal why) ∧ v = w

/-- An information word below `2^18` holds its number whole (10_state.md R22). -/
theorem toNat_ofNat_of_lt {n : Nat} (h : n < 2 ^ 18) : (BitVec.ofNat 32 n).toNat = n :=
  Nat.mod_eq_of_lt (h.trans (by decide))

/-- On registers that fit, a decoded command raises its faults as their rows say. -/
theorem Raises.causeRow {w : Word} {i : Instr} {s : State} {c : Cause} {v : Word} (h : Raises s i c v)
    (hs : ∀ r, (s.reg r).length ≤ Config.cap) (hw : decode w = .command i) : CauseRow w s c v := by
  have hwf := wellFormed_of_decode hw
  cases h with
  | lslRange rd ra n hn =>
    have hn16 : n < 2 ^ 16 := of_decide_eq_true hwf
    exact ⟨rd, ra, n, .inl hw, hn, toNat_ofNat_of_lt (by omega), by omega⟩
  | lsrRange rd ra n hn =>
    have hn16 : n < 2 ^ 16 := of_decide_eq_true hwf
    exact ⟨rd, ra, n, .inr hw, hn, toNat_ofNat_of_lt (by omega), by omega⟩
  | divZero rd ra rb hb => exact ⟨rd, ra, rb, hw, hb, rfl⟩
  | parseWindow r base k hout =>
    obtain ⟨hbase, hk⟩ : base < 2 ^ 12 ∧ k < 2 ^ 12 := by simpa [Instr.WellFormed, Instr.wellFormed, imm12Ok] using hwf
    have hv : (BitVec.ofNat 32 (base + k)).toNat = base + k := toNat_ofNat_of_lt (by omega)
    simp only [Config.txtsz] at hout
    exact ⟨r, base, k, .inl ⟨k, hw, rfl⟩, hv, by omega, by omega⟩
  | tohexWindow r base hout =>
    have hbase : base < 2 ^ 12 := of_decide_eq_true hwf
    have hlen : (s.reg r).length ≤ 8192 := hs r
    have hcount : digitCount (s.reg r) = max 1 (((s.reg r).length + 3) / 4) := rfl
    have hv : (BitVec.ofNat 32 (base + digitCount (s.reg r))).toNat = base + digitCount (s.reg r) :=
      toNat_ofNat_of_lt (by omega)
    simp only [Config.txtsz] at hout
    exact ⟨r, base, _, .inr ⟨hw, hcount⟩, hv, by omega, by omega⟩
  | malformed r base k j hin hj hbad =>
    have hv : (BitVec.ofNat 32 (base + j)).toNat = base + j := toNat_ofNat_of_lt (by simp only [Config.txtsz] at hin; omega)
    simp only [Config.txtsz] at hin
    exact ⟨r, base, k, j, hw, hj, hbad, hv, by omega⟩
  | capacity _ rd hdest hover =>
    obtain ⟨hlen, hrow⟩ := length_result hs hwf
    exact ⟨i, hw, hrow hover, hover, toNat_ofNat_of_lt (by omega)⟩

/-- HostCmd on a block that is not faulted raises a fault, whose cause is one of the seven, or leaves the fault registers
alone (60_exceptions.md R185). -/
theorem hostCmd_raises_or_sameFault {w : Word} {s t : State} (hf : s.fault = false) (h : hostCmd w s = .next t) :
    (∃ c v, t = s.raise c v ∧ c ≠ .noFault ∧ ((∀ r, (s.reg r).length ≤ Config.cap) → CauseRow w s c v)) ∨
      SameFault s t := by
  rcases hostCmd_cases hf h with ⟨i, hw, hexec⟩ | ⟨hillegal, rfl⟩
  · rcases (does_of_exec hexec).raises_or_sameFault with ⟨c, v, hr, rfl⟩ | hsame
    · exact .inl ⟨c, v, rfl, hr.cause_ne_noFault, fun hs => hr.causeRow hs hw⟩
    · exact .inr hsame
  · exact .inl ⟨.illegalCmd, w, rfl, by decide, fun _ => ⟨hillegal, rfl⟩⟩

theorem Cause.code_lt (c : Cause) : c.code < 8 := by cases c <;> decide

/-- CSR CAUSE reads the code of the cause (60_exceptions.md R175). -/
theorem State.toNat_csrWord_cause (s : State) : (s.csrWord 1).toNat = s.cause.code :=
  toNat_ofNat_of_lt (s.cause.code_lt.trans (by decide))

end Sys2Proof.Machine

open Sys2Proof Sys2Proof.Machine

/-- Settles O18: a command that faults is one `raise`, and any other leaves the fault registers alone. -/
theorem faultsArePrecise : Obligations.FaultsArePrecise := by
  refine ⟨fun s c v => ⟨OnlyFault.raise s c v, (s.raise c v).toNat_csrWord_cause, rfl⟩, fun w s t hf h => ?_⟩
  rcases hostCmd_raises_or_sameFault hf h with ⟨c, v, rfl, hc, -⟩ | ⟨hfault, hcause, hfinfo⟩
  · exact ⟨fun _ => ⟨rfl, hc⟩, fun hno => by cases hno⟩
  · refine ⟨fun ht => ?_, fun _ => ⟨hcause, hfinfo⟩⟩
    rw [hfault, hf] at ht
    cases ht

/-- Settles O19: a faulting command raised a cause whose row holds, and each clause is one row. -/
theorem eachCauseIsRaisedAsItsRowSays : Obligations.EachCauseIsRaisedAsItsRowSays := by
  refine ⟨rfl, fun w s t hinv hf h ht => ?_⟩
  have hrow : CauseRow w s t.cause t.finfo := by
    rcases hostCmd_raises_or_sameFault hf h with ⟨c, v, rfl, -, hrow⟩ | ⟨hfault, -, -⟩
    · exact hrow hinv.regsFit
    · rw [hfault, hf] at ht
      cases ht
  refine ⟨?_, ?_, ?_, ?_, ?_, ?_, ?_⟩ <;> intro hcause <;> rw [hcause] at hrow <;> exact hrow

end

section
/-! The step and the host transactions (20_memory.md section 3, 60_exceptions.md section 2): which transaction a step is, what
each one answers, on a faulted block as well, and what the CSRs and the reset state read. -/

namespace Sys2Proof.Machine

/-- A step is the next transaction, run with it taken off the host's list (20_memory.md R48; log entry 1). -/
theorem step_of_queue {s : State} {tx : HostTx} {q : List HostTx} (h : s.hostQueue = tx :: q) :
    step s = hostTransact tx (s.setQueue q) := by
  simp [step, hostStep, h]

/-- A step with nothing to issue (60_exceptions.md R193; log entry 1). -/
theorem step_of_idle {s : State} (h : s.hostQueue = []) : step s = .next s := by
  simp [step, hostStep, h]

/-- A legal word on a block that is not faulted executes (20_memory.md R48). -/
theorem hostCmd_of_command {w : Word} {s : State} {i : Instr} (hf : s.fault = false) (hw : decode w = .command i) :
    hostCmd w s = exec i s := by
  simp [hostCmd, hf, hw]

/-- Every word is answered by a next state: discarded, taken as a fault or executed (60_exceptions.md R185, R186). -/
theorem exists_next_hostCmd (w : Word) (s : State) : ∃ t, hostCmd w s = .next t := by
  cases hf : s.fault with
  | true => exact ⟨s, hostCmd_of_fault w hf⟩
  | false =>
    cases hw : decode w with
    | command i =>
      obtain ⟨t, hexec, -⟩ := exec_does i s
      exact ⟨t, (hostCmd_of_command hf hw).trans hexec⟩
    | illegal why => exact ⟨_, hostCmd_illegal hf ⟨why, hw⟩⟩

theorem exists_next_hostTransact (tx : HostTx) (s : State) : ∃ t, hostTransact tx s = .next t := by
  cases tx with
  | cmd w => exact exists_next_hostCmd w s
  | txtWrite | txtRead | csrRead | reset => exact ⟨_, rfl⟩

/-- A value handed to the host changes nothing of the block (20_memory.md R50, R51). -/
theorem State.answer_frame (s : State) (v : HostAnswer) :
    (s.answer v).hostQueue = s.hostQueue ∧ SameTxt s (s.answer v) ∧ SameRegs s (s.answer v) ∧ SameFault s (s.answer v) ∧
      SameFlags s (s.answer v) ∧ SameCsrs s (s.answer v) :=
  ⟨rfl, fun _ => rfl, fun _ => rfl, ⟨rfl, rfl, rfl⟩, ⟨rfl, rfl, rfl⟩, ⟨rfl, rfl, rfl⟩⟩

/-- On a faulted block no transaction but HostReset changes anything but TXT and what the host was answered
(60_exceptions.md R186, R188). -/
theorem faulted_block_kept {s t : State} {tx : HostTx} (hf : s.fault = true) (htx : tx ≠ .reset)
    (h : hostTransact tx s = .next t) : SameFault s t ∧ SameRegs s t ∧ SameFlags s t ∧ SameCsrs s t := by
  cases tx with
  | cmd w =>
    obtain rfl : s = t := Host.Outcome.next.inj ((hostCmd_of_fault w hf).symm.trans h)
    exact ⟨⟨rfl, rfl, rfl⟩, fun _ => rfl, ⟨rfl, rfl, rfl⟩, ⟨rfl, rfl, rfl⟩⟩
  | txtWrite a v =>
    cases h
    obtain ⟨hregs, hfault, hflags, hcsrs, -⟩ := s.memWrite_frame a v
    exact ⟨hfault, hregs, hflags, hcsrs⟩
  | txtRead | csrRead =>
    cases h
    obtain ⟨-, -, hregs, hfault, hflags, hcsrs⟩ := s.answer_frame _
    exact ⟨hfault, hregs, hflags, hcsrs⟩
  | reset => exact absurd rfl htx

/-- STATUS is the sequence of its four flags, bit by bit, and 0 above them (10_state.md R21). -/
theorem State.getLsbD_csrWord_status (s : State) (i : Nat) :
    (s.csrWord 0).getLsbD i = bitAt [s.fault, s.diag, s.ge, s.bit] i := by
  have hval : s.csrWord 0 = BitVec.ofNat 32 (val [s.fault, s.diag, s.ge, s.bit]) := by
    simp only [State.csrWord, State.statusWord, val_cons, val_nil]
    congr 1
    omega
  rw [hval, BitVec.getLsbD_ofNat, ← bitAt_eq_testBit]
  by_cases hi : i < 32
  · simp [hi]
  · simp [hi, bitAt_of_length_le (s := [s.fault, s.diag, s.ge, s.bit]) (i := i) (by simp; omega)]

/-- SIGN reads the eight sign bits (10_state.md R14). -/
theorem State.toNat_csrWord_sign (s : State) : (s.csrWord 7).toNat = s.sign.toNat :=
  BitVec.toNat_setWidth_of_le (by decide)

end Sys2Proof.Machine

open Sys2Proof Sys2Proof.Machine

/-- Settles O7: the equation of a step for each shape of the host's list. -/
theorem stepIssuesTheNextTransaction : Obligations.StepIssuesTheNextTransaction :=
  ⟨fun _ _ _ => step_of_queue, fun _ => step_of_idle⟩

/-- Settles O6: the step is HostCmd of the word, which taking it off the list does not make faulted. -/
theorem stepRunsTheDecodedCommand : Obligations.StepRunsTheDecodedCommand := by
  intro s w q i hq hf hw
  have hf' : (s.setQueue q).fault = false := hf
  exact (step_of_queue hq).trans (hostCmd_of_command hf' hw)

/-- Settles O8: every transaction completes, and a step is one or the idle step. -/
theorem everyStepAnswersANextState : Obligations.EveryStepAnswersANextState := by
  intro s
  cases hq : s.hostQueue with
  | nil => exact ⟨s, step_of_idle hq⟩
  | cons tx q =>
    rw [step_of_queue hq]
    exact exists_next_hostTransact tx _

/-- Settles O10: the frame of a faulted block. -/
theorem firstFaultSinceResetIsKept : Obligations.FirstFaultSinceResetIsKept :=
  fun _ _ _ => faulted_block_kept

/-- Settles O9: HostCmd is discarded, the other transactions do not look at FAULT, and FAULT stays but for HostReset. -/
theorem faultedBlockDiscardsCommandsUntilReset : Obligations.FaultedBlockDiscardsCommandsUntilReset := by
  intro s hf
  refine ⟨fun w => hostCmd_of_fault w hf, hostTransact_txtWrite s, fun _ => rfl, fun _ => rfl, fun tx t h => ?_⟩
  by_cases htx : tx = .reset
  · subst htx
    cases h
    exact ⟨iff_of_true s.hostReset_fault rfl, fun _ => s.hostReset_reg⟩
  · obtain ⟨⟨hfault, -, -⟩, -⟩ := faulted_block_kept hf htx h
    refine ⟨iff_of_false ?_ htx, fun he => absurd he htx⟩
    rw [hfault, hf]
    decide

/-- Settles O12: the transaction is one `answer`, and a written cell reads back through writes of other cells. -/
theorem hostTextReadReturnsTheCell : Obligations.HostTextReadReturnsTheCell := by
  refine ⟨fun s a => ⟨_, rfl, rfl, s.answer_frame _⟩, fun s a hnone => ?_, fun s a b v w hab => ⟨?_, ?_⟩⟩
  · rw [State.memRead, hnone]
    rfl
  · rw [State.memWrite_memRead_of_ne _ hab, State.memWrite_memRead_self]
  · rw [State.memWrite_memRead_self]

/-- Settles O13: the transaction is one `answer`. -/
theorem hostCsrReadReturnsTheRegister : Obligations.HostCsrReadReturnsTheRegister :=
  fun s _ => ⟨_, rfl, rfl, s.answer_frame _⟩

/-- Settles O14: STATUS bit by bit, each other CSR by its number. -/
theorem csrsReadTheirContents : Obligations.CsrsReadTheirContents := by
  intro s
  have hstatus := s.getLsbD_csrWord_status
  refine ⟨hstatus 0, hstatus 1, hstatus 2, hstatus 3, fun i hi => ?_, s.toNat_csrWord_cause, s.cause.code_lt, rfl, rfl, rfl,
    rfl, rfl, s.toNat_csrWord_sign, fun hinv => ?_, fun n hn => s.csrWord_of_lt hn, (hstatus 0).symm, (hstatus 1).symm⟩
  · rw [hstatus, bitAt_of_length_le hi]
  · rw [State.csrWord, hinv.signZero]
    rfl

/-- Settles O15: HostReset is the reset state with TXT and the host's lists as they were. -/
theorem hostResetGivesTheResetState : Obligations.HostResetGivesTheResetState := by
  intro s
  have hsame : SameTxt s s.hostReset := s.hostReset_memRead
  exact ⟨s.hostReset, rfl, s.hostReset_reg, rfl, rfl, rfl, rfl, rfl, rfl, rfl, rfl, rfl, rfl, rfl, rfl, rfl, rfl,
    hsame, ⟨rfl, rfl⟩, fun _ => rfl⟩

end

section
/-! The invariant of the machine (10_state.md sections 1, 2, 5; 60_exceptions.md section 1): each update of the state keeps it,
so every command, every host transaction and every step does. -/

namespace Sys2Proof.Machine

theorem reset_inv : State.reset.Inv where
  regsFit r := by simp
  txtWf := rfl
  signZero := rfl
  faultCause := by decide
  finfo := rfl
  lenr := Nat.zero_le _
  txtlen := Nat.zero_le _

section
variable {s : State} (h : s.Inv)
include h

/-! Each update keeps the invariant: what it writes is within its bound, and the rest is as before. -/

theorem State.Inv.setReg (rd : Reg) {v : Bits} (hv : v.length ≤ Config.cap) : (s.setReg rd v).Inv :=
  { h with
    regsFit := fun r => by
      rw [State.setReg_reg]
      split
      · exact hv
      · exact h.regsFit r }

theorem State.Inv.orDiag (d : Bool) : (s.orDiag d).Inv := { h with }

theorem State.Inv.raise {c : Cause} {v : Word} (hc : c ≠ .noFault) (hv : finfoOk c v = true) : (s.raise c v).Inv :=
  { h with faultCause := ⟨fun _ => hc, fun _ => rfl⟩, finfo := hv }

theorem State.Inv.setBit (b : Bool) : (s.setBit b).Inv := { h with }

theorem State.Inv.setGe (b : Bool) : (s.setGe b).Inv := { h with }

theorem State.Inv.clearDiag : s.clearDiag.Inv := { h with }

theorem State.Inv.setLenr {v : Word} (hv : v.toNat ≤ Config.cap) : (s.setLenr v).Inv := { h with lenr := hv }

theorem State.Inv.setTxt {m : List Host.Cell} (hm : Memory.wf m = true) : (s.setTxt m).Inv := { h with txtWf := hm }

theorem State.Inv.setTxtlen {v : Word} (hv : v.toNat ≤ max 1 ((Config.cap + 3) / 4)) : (s.setTxtlen v).Inv :=
  { h with txtlen := hv }

theorem State.Inv.memWrite (a : TxtAddr) (v : Byte) : (s.memWrite a v).Inv := { h with txtWf := Memory.wf_write h.txtWf a v }

theorem State.Inv.answer (v : HostAnswer) : (s.answer v).Inv := { h with }

theorem State.Inv.setQueue (q : List HostTx) : (s.setQueue q).Inv := { h with }

theorem State.Inv.hostReset : s.hostReset.Inv := { reset_inv with txtWf := h.txtWf }

/-- The character count of a register is within the bound of TXTLEN (10_state.md R23). -/
theorem State.Inv.digitCount_le (r : Reg) : digitCount (s.reg r) ≤ max 1 ((Config.cap + 3) / 4) :=
  max_le_max_left 1 (Nat.div_le_div_right (Nat.add_le_add_right (h.regsFit r) 3))

end

/-- The information word of a cause's row is one that FINFO may hold beside the cause (60_exceptions.md R175). -/
theorem CauseRow.finfoOk {w : Word} {s : State} {c : Cause} {v : Word} (h : CauseRow w s c v) : finfoOk c v = true := by
  cases c with
  | noFault => exact h.elim
  | malformedInput =>
    obtain ⟨-, -, -, -, -, -, -, -, hv⟩ := h
    exact decide_eq_true (Nat.lt_succ_of_le hv)
  | shiftRange =>
    obtain ⟨-, -, n, -, hn, hv, hn16⟩ := h
    simp only [Machine.finfoOk, hv, hn, decide_true, Bool.true_and, decide_eq_true_eq]
    omega
  | mapFail => exact h.elim
  | divZero =>
    obtain ⟨-, -, -, -, -, rfl⟩ := h
    rfl
  | capacity =>
    obtain ⟨i, -, -, hover, hv⟩ := h
    exact decide_eq_true (hover.trans_eq hv.symm)
  | txtRange =>
    obtain ⟨-, -, -, -, -, hlo, hhi⟩ := h
    simp only [Machine.finfoOk, hhi, decide_true, Bool.and_true, decide_eq_true_eq]
    exact hlo
  | illegalCmd =>
    obtain ⟨⟨why, hillegal⟩, rfl⟩ := h
    simp [Machine.finfoOk, hillegal]

/-- A decoded command keeps the invariant: a result that is written fits, and a fault is one of its row. -/
theorem Does.inv {w : Word} {i : Instr} {s t : State} (h : Does s i t) (hinv : s.Inv) (hw : decode w = .command i) :
    t.Inv := by
  cases h with
  | raises _ c v hr => exact hinv.raise hr.cause_ne_noFault (hr.causeRow hinv.regsFit hw).finfoOk
  | writes _ rd _ hfits => exact (hinv.orDiag _).setReg rd hfits
  | getb => exact hinv.setBit _
  | len ra => exact hinv.setLenr ((toNat_ofNat_of_le_cap (hinv.regsFit ra)).trans_le (hinv.regsFit ra))
  | cmpge => exact hinv.setGe _
  | tohex r =>
    have hcount := hinv.digitCount_le r
    refine (hinv.setTxt (Memory.wf_storeDigits hinv.txtWf _ _)).setTxtlen ?_
    rwa [toNat_ofNat_of_le_cap (hcount.trans (by decide))]
  | clrdiag => exact hinv.clearDiag

theorem hostCmd_inv {w : Word} {s t : State} (hinv : s.Inv) (h : hostCmd w s = .next t) : t.Inv := by
  cases hf : s.fault with
  | true =>
    rw [hostCmd_of_fault w hf] at h
    cases h
    exact hinv
  | false =>
    rcases hostCmd_cases hf h with ⟨i, hw, hexec⟩ | ⟨hillegal, rfl⟩
    · exact (does_of_exec hexec).inv hinv hw
    · exact hinv.raise (by decide) (CauseRow.finfoOk (w := w) (s := s) ⟨hillegal, rfl⟩)

theorem hostTransact_inv {tx : HostTx} {s t : State} (hinv : s.Inv) (h : hostTransact tx s = .next t) : t.Inv := by
  cases tx with
  | cmd w => exact hostCmd_inv hinv h
  | txtWrite a v => cases h; exact hinv.memWrite a v
  | txtRead a => cases h; exact hinv.answer _
  | csrRead n => cases h; exact hinv.answer _
  | reset => cases h; exact hinv.hostReset

end Sys2Proof.Machine

open Sys2Proof Sys2Proof.Machine

/-- Settles O16: the reset state's registers are empty, its text memory lists no cell, and its CSRs are 0. -/
theorem resetMeetsTheInvariant : Obligations.ResetMeetsTheInvariant := reset_inv

/-- Settles O17: taking a transaction off the host's list keeps the invariant, and so does the transaction. -/
theorem everyStepKeepsTheInvariant : Obligations.EveryStepKeepsTheInvariant := by
  intro s t hinv h
  cases hq : s.hostQueue with
  | nil =>
    rw [step_of_idle hq] at h
    cases h
    exact hinv
  | cons tx q =>
    rw [step_of_queue hq] at h
    exact hostTransact_inv (hinv.setQueue q) h

end

section
/-! The order of the checks (60_exceptions.md R187): the checks that come before the commit rule, what a command does when one
of them fails and when all pass, and that neither they nor the result look at a register that is no source (10_state.md R12). -/

namespace Sys2Proof.Machine

/-- The fault that the checks before the commit rule find, in their order (60_exceptions.md R187). -/
def Instr.earlyFault (s : State) : Instr → Option (Cause × Word)
  | .parse _ base k =>
    if windowOk base k then
      match scanHex s.txt base k with
      | .bits _ => none
      | .invalid a => some (.malformedInput, a.setWidth 32)
    else some (.txtRange, BitVec.ofNat 32 (base + k))
  | .div _ _ rb => if val (s.reg rb) = 0 then some (.divZero, 0#32) else none
  | .lsl _ _ n => if Config.maxw ≤ n then some (.shiftRange, BitVec.ofNat 32 n) else none
  | .lsr _ _ n => if Config.maxw ≤ n then some (.shiftRange, BitVec.ofNat 32 n) else none
  | .tohex r base =>
    if windowOk base (digitCount (s.reg r)) then none
    else some (.txtRange, BitVec.ofNat 32 (base + digitCount (s.reg r)))
  | _ => none

/-- A check that fails ends the command with its fault (60_exceptions.md R185, R187). -/
theorem exec_of_earlyFault {i : Instr} {s : State} {c : Cause} {v : Word} (h : Instr.earlyFault s i = some (c, v)) :
    exec i s = .next (s.raise c v) := by
  cases i with
  | parse r base k =>
    simp only [Instr.earlyFault] at h
    simp only [exec, execParse]
    split at h
    · rename_i hwindow
      rw [if_pos hwindow]
      cases hscan : scanHex s.txt base k with
      | bits bs =>
        rw [hscan] at h
        cases h
      | invalid a =>
        rw [hscan] at h
        cases h
        rfl
    · rename_i hwindow
      cases h
      rw [if_neg hwindow]
  | div rd ra rb =>
    simp only [Instr.earlyFault, Option.ite_none_right_eq_some] at h
    obtain ⟨hzero, hcv⟩ := h
    cases hcv
    exact exec_div_of_val_eq_zero rd ra hzero
  | lsl rd ra n =>
    simp only [Instr.earlyFault, Option.ite_none_right_eq_some] at h
    obtain ⟨hn, hcv⟩ := h
    cases hcv
    exact exec_lsl_out_of_range s rd ra hn
  | lsr rd ra n =>
    simp only [Instr.earlyFault, Option.ite_none_right_eq_some] at h
    obtain ⟨hn, hcv⟩ := h
    cases hcv
    exact exec_lsr_out_of_range s rd ra hn
  | tohex r base =>
    simp only [Instr.earlyFault, Option.ite_none_left_eq_some] at h
    obtain ⟨hwindow, hcv⟩ := h
    cases hcv
    exact congrArg Host.Outcome.next (if_neg hwindow)
  | _ => cases h

/-- A command that writes no DIAG and commits its result, as a commit beside its diagnostic bit. -/
theorem exec_commitWith_of_commit {i : Instr} {s : State} {rd : Reg} (hdiag : Instr.diagnostic s i = false)
    (h : exec i s = .next (s.commit rd (Instr.result s i))) :
    exec i s = .next (s.commitWith (s.orDiag (Instr.diagnostic s i)) rd (Instr.result s i)) := by
  rw [h, hdiag, State.orDiag_false, State.commit]

/-- A command that writes a register hands its result to the commit rule once the earlier checks have passed
(10_state.md R13, 60_exceptions.md R187). -/
theorem exec_of_checks_passed {i : Instr} {s : State} {rd : Reg} (hdest : i.dest = some rd)
    (h : Instr.earlyFault s i = none) :
    exec i s = .next (s.commitWith (s.orDiag (Instr.diagnostic s i)) rd (Instr.result s i)) := by
  cases i with
  | parse r base k =>
    cases hdest
    refine exec_commitWith_of_commit rfl ?_
    simp only [Instr.earlyFault] at h
    simp only [exec, execParse, Instr.result]
    split at h
    · rename_i hwindow
      rw [if_pos hwindow]
      cases hscan : scanHex s.txt base k with
      | bits bs => rfl
      | invalid a =>
        rw [hscan] at h
        cases h
    · cases h
  | div rd ra rb =>
    cases hdest
    simp only [Instr.earlyFault, ite_eq_right_iff, reduceCtorEq, imp_false] at h
    exact congrArg Host.Outcome.next (if_neg h)
  | lsl rd ra n =>
    cases hdest
    simp only [Instr.earlyFault, ite_eq_right_iff, reduceCtorEq, imp_false, Nat.not_le] at h
    exact exec_commitWith_of_commit rfl (exec_lsl_in_range s rd ra h)
  | lsr rd ra n =>
    cases hdest
    simp only [Instr.earlyFault, ite_eq_right_iff, reduceCtorEq, imp_false, Nat.not_le] at h
    exact exec_commitWith_of_commit rfl (exec_lsr_in_range s rd ra h)
  | sub rd ra rb =>
    cases hdest
    rfl
  | getb | len | cmpge | tohex | clrdiag => cases hdest
  | _ =>
    cases hdest
    exact exec_commitWith_of_commit rfl rfl

/-- Only a command with a destination has a result that could be too long. -/
theorem exists_dest_of_cap_lt {i : Instr} {s : State} (h : Config.cap < (Instr.result s i).length) :
    ∃ rd, i.dest = some rd := by
  cases i with
  | getb | len | cmpge | tohex | clrdiag => cases h
  | _ => exact ⟨_, rfl⟩

/-- The premises of the last check of R187: the earlier checks of a command with a destination pass. -/
theorem earlyFault_eq_none {i : Instr} {s : State} {rd : Reg} (hdest : i.dest = some rd)
    (hcount : ∀ rd ra n, i = .lsl rd ra n ∨ i = .lsr rd ra n → n < Config.maxw)
    (hwindow : ∀ r base len, i = .parse r base len → base + len ≤ Config.txtsz ∧ s.AllHex base len)
    (hdivisor : ∀ rd ra rb, i = .div rd ra rb → val (s.reg rb) ≠ 0) : Instr.earlyFault s i = none := by
  cases i with
  | parse r base k =>
    obtain ⟨hfits, hhex⟩ := hwindow r base k rfl
    obtain ⟨v, hscan, -, -⟩ := scanHex_of_allHex hhex
    simp [Instr.earlyFault, (windowOk_iff base k).2 hfits, hscan]
  | div rd ra rb => exact if_neg (hdivisor rd ra rb rfl)
  | lsl rd ra n => exact if_neg (Nat.not_le.2 (hcount rd ra n (.inl rfl)))
  | lsr rd ra n => exact if_neg (Nat.not_le.2 (hcount rd ra n (.inr rfl)))
  | tohex => cases hdest
  | _ => rfl

/-- What two runs of a command have in common when it looks at no register but its sources, the second one from the register
file `f`: all but the registers, and the destination's content unless a fault left each file as it was (10_state.md R12). -/
def SameEffect (dest : Option Reg) (s : State) (f : RegFile) (t t' : State) : Prop :=
  SameFault t t' ∧ SameFlags t t' ∧ SameCsrs t t' ∧ SameTxt t t' ∧ SameHost t t' ∧
    ∀ r, dest = some r → (t.reg r = t'.reg r ∨ (t.reg r = s.reg r ∧ t'.reg r = f.get r ∧ t.fault = true))

section
variable (s : State) (f : RegFile)

theorem SameEffect.raise (dest : Option Reg) (c : Cause) (v : Word) :
    SameEffect dest s f (s.raise c v) (State.raise { s with regs := f } c v) :=
  ⟨⟨rfl, rfl, rfl⟩, ⟨rfl, rfl, rfl⟩, ⟨rfl, rfl, rfl⟩, fun _ => rfl, ⟨rfl, rfl⟩, fun _ _ => .inr ⟨rfl, rfl, rfl⟩⟩

theorem SameEffect.commitWith (rd : Reg) (d : Bool) (v : Bits) :
    SameEffect (some rd) s f (s.commitWith (s.orDiag d) rd v)
      (State.commitWith { s with regs := f } (State.orDiag { s with regs := f } d) rd v) := by
  rcases Nat.lt_or_ge Config.cap v.length with hover | hfits
  · rw [State.commitWith_overflows _ _ _ hover, State.commitWith_overflows _ _ _ hover]
    exact SameEffect.raise s f _ _ _
  · rw [State.commitWith_fits _ _ _ hfits, State.commitWith_fits _ _ _ hfits]
    refine ⟨⟨rfl, rfl, rfl⟩, ⟨rfl, rfl, rfl⟩, ⟨rfl, rfl, rfl⟩, fun _ => rfl, ⟨rfl, rfl⟩, ?_⟩
    rintro r ⟨⟩
    rw [State.setReg_reg_self, State.setReg_reg_self]
    exact .inl rfl

theorem SameEffect.of_regs (t : State) : SameEffect none s f t { t with regs := f } :=
  ⟨⟨rfl, rfl, rfl⟩, ⟨rfl, rfl, rfl⟩, ⟨rfl, rfl, rfl⟩, fun _ => rfl, ⟨rfl, rfl⟩, fun _ h => nomatch h⟩

end

section
variable {i : Instr} {s : State} {f : RegFile} (h : ∀ r ∈ i.sources, f.get r = s.reg r)
include h

/-! What a command computes depends on its sources only (10_state.md R12, column Reads). -/

theorem reg_of_same_sources {r : Reg} (hr : r ∈ i.sources) : State.reg { s with regs := f } r = s.reg r := h r hr

theorem result_of_same_sources : Instr.result { s with regs := f } i = Instr.result s i := by
  cases i <;> simp_all [Instr.result, Instr.sources, State.reg]

theorem diagnostic_of_same_sources : Instr.diagnostic { s with regs := f } i = Instr.diagnostic s i := by
  cases i <;> simp_all [Instr.diagnostic, Instr.sources, State.reg]

theorem earlyFault_of_same_sources : Instr.earlyFault { s with regs := f } i = Instr.earlyFault s i := by
  cases i with
  | div rd ra rb =>
    have hb := reg_of_same_sources h (r := rb) (by simp [Instr.sources])
    rw [Instr.earlyFault, hb, Instr.earlyFault]
  | tohex r base =>
    have hr := reg_of_same_sources h (r := r) (by simp [Instr.sources])
    rw [Instr.earlyFault, hr, Instr.earlyFault]
  | _ => rfl

/-- A command without a destination keeps the register file and does the rest from its sources. -/
theorem exec_of_same_sources_of_no_dest {t : State} (hdest : i.dest = none) (hexec : exec i s = .next t) :
    exec i { s with regs := f } = .next { t with regs := f } := by
  cases i with
  | getb ra idx =>
    cases hexec
    have ha := reg_of_same_sources h (r := ra) (by simp [Instr.sources])
    rw [exec_getb, ha]
    rfl
  | len ra =>
    cases hexec
    have ha := reg_of_same_sources h (r := ra) (by simp [Instr.sources])
    rw [exec_len, ha]
    rfl
  | cmpge ra rb =>
    cases hexec
    have ha := reg_of_same_sources h (r := ra) (by simp [Instr.sources])
    have hb := reg_of_same_sources h (r := rb) (by simp [Instr.sources])
    rw [exec_cmpge, ha, hb]
    rfl
  | tohex r base =>
    have hr := reg_of_same_sources h (r := r) (by simp [Instr.sources])
    rcases Nat.lt_or_ge Config.txtsz (base + digitCount (s.reg r)) with hout | hin
    · rw [exec_tohex_outside hout] at hexec
      cases hexec
      rw [exec_tohex_outside (by rwa [hr]), hr]
      rfl
    · rw [exec_tohex_inside hin] at hexec
      cases hexec
      rw [exec_tohex_inside (by rwa [hr]), hr]
      rfl
  | clrdiag =>
    cases hexec
    rfl
  | _ => cases hdest

/-- Two runs of a command from files that agree on its sources have the same effect (10_state.md R12, column Reads). -/
theorem sameEffect_of_same_sources {t t' : State} (hexec : exec i s = .next t)
    (hexec' : exec i { s with regs := f } = .next t') : SameEffect i.dest s f t t' := by
  have hearly := earlyFault_of_same_sources h
  cases hfault : Instr.earlyFault s i with
  | some raised =>
    rw [hfault] at hearly
    obtain rfl := Host.Outcome.next.inj ((exec_of_earlyFault hfault).symm.trans hexec)
    obtain rfl := Host.Outcome.next.inj ((exec_of_earlyFault hearly).symm.trans hexec')
    exact SameEffect.raise s f _ _ _
  | none =>
    rw [hfault] at hearly
    cases hdest : i.dest with
    | some rd =>
      have hrun := exec_of_checks_passed hdest hearly
      rw [result_of_same_sources h, diagnostic_of_same_sources h] at hrun
      obtain rfl := Host.Outcome.next.inj ((exec_of_checks_passed hdest hfault).symm.trans hexec)
      obtain rfl := Host.Outcome.next.inj (hrun.symm.trans hexec')
      exact SameEffect.commitWith s f rd _ _
    | none =>
      have hrun := exec_of_same_sources_of_no_dest h hdest hexec
      obtain rfl := Host.Outcome.next.inj (hrun.symm.trans hexec')
      exact SameEffect.of_regs s f t

end

/-- Only SUB and DIV have a diagnostic bit (10_state.md R17). -/
theorem opcode_of_diagnostic {i : Instr} {s : State} (h : Instr.diagnostic s i = true) : i.opcode ∈ [.sub, .div] := by
  cases i with
  | sub | div => simp [Instr.opcode]
  | _ => cases h

end Sys2Proof.Machine

open Sys2Proof Sys2Proof.Machine

/-- Settles O20: each early check answers whatever the later ones would find, and the commit rule comes when all passed. -/
theorem faultsAreTakenInTheOrderOfTheChecks : Obligations.FaultsAreTakenInTheOrderOfTheChecks := by
  intro w s
  refine ⟨hostCmd_of_fault w, fun hf => ⟨hostCmd_illegal hf, ?_, ?_, ?_, ?_, ?_, ?_⟩⟩
  · rintro rd ra n (hw | hw) hn
    · exact (hostCmd_of_command hf hw).trans (exec_lsl_out_of_range s rd ra hn)
    · exact (hostCmd_of_command hf hw).trans (exec_lsr_out_of_range s rd ra hn)
  · intro r base len hw hout
    exact (hostCmd_of_command hf hw).trans (exec_parse_outside s r hout)
  · intro r base hw hout
    exact (hostCmd_of_command hf hw).trans (exec_tohex_outside hout)
  · intro rd ra rb hw hzero
    exact (hostCmd_of_command hf hw).trans (exec_div_of_val_eq_zero rd ra hzero)
  · intro r base len k hw hwindow hk hbad hok
    exact (hostCmd_of_command hf hw).trans (exec_parse_invalid r hwindow hk hbad hok)
  · intro i hw hover hcount hwindow hdivisor
    obtain ⟨rd, hdest⟩ := exists_dest_of_cap_lt hover
    have hpassed := earlyFault_eq_none hdest hcount hwindow hdivisor
    rw [hostCmd_of_command hf hw, exec_of_checks_passed hdest hpassed, State.commitWith_overflows _ _ _ hover]

/-- Settles O22: the checks, the result and the diagnostic bit are functions of the sources. -/
theorem eachCommandReadsOnlyItsSources : Obligations.EachCommandReadsOnlyItsSources :=
  fun _ _ _ _ _ h hexec hexec' => sameEffect_of_same_sources h hexec hexec'

/-- Settles O21: a fault writes none of these, a commit its destination and DIAG, and each other command its own field. -/
theorem eachCommandWritesOnlyWhatItsRowNames : Obligations.EachCommandWritesOnlyWhatItsRowNames := by
  intro i s t hexec
  cases does_of_exec hexec with
  | raises => simp [SameTxt, SameHost]
  | writes _ rd hdest =>
    refine ⟨fun r hr => ?_, fun hne => absurd rfl hne, fun hne => absurd rfl hne, fun hne => .inl ?_,
      fun hne => absurd rfl hne, fun hne => absurd rfl hne, fun _ _ => rfl, rfl, rfl, rfl⟩
    · exact State.setReg_reg_of_ne _ (fun heq => hr (by rw [hdest, heq])) _
    · have hdiag : Instr.diagnostic s i = true := by
        cases hd : Instr.diagnostic s i with
        | true => rfl
        | false => simp [hd] at hne
      exact ⟨opcode_of_diagnostic hdiag, by simp [hdiag]⟩
  | getb | len | cmpge => simp [SameTxt, SameHost, Instr.opcode]
  | tohex => simp [SameHost, Instr.opcode]
  | clrdiag => simp [SameTxt, SameHost, Instr.opcode]

end

section
/-! The diagnostic of the divider (44_div.md R142), settled from its closed form for canonical divisors. -/

open Sys2Proof Sys2Proof.Machine

/-- Settles O50: a canonical divisor of non-zero value gives the diagnostic bit 0; the example runs. -/
theorem dividerDiagnosticNeedsANonCanonicalDivisor : Obligations.DividerDiagnosticNeedsANonCanonicalDivisor := by
  refine ⟨fun a b hb hdiag => ?_, by decide⟩
  by_contra hcanonical
  rw [Bool.not_eq_false] at hcanonical
  rw [div_of_isCanonical a hcanonical hb] at hdiag
  cases hdiag

end
